-- ==== Sys2Proof/Word.lean ====
section
/-! DEFINITION. The word types of I2CM-SEQ (spec/00_scope.md R8 to R10): every value is unsigned, and bit 0 is the least significant bit. -/

namespace Sys2Proof

/-- A byte: a transfer buffer byte, a data register byte, a register index (R8, R28, R47). -/
abbrev Byte := BitVec 8

/-- A 7-bit DeviceAddress (R8, R15). -/
abbrev Address := BitVec 7

/-- One word on the command port CMD[31:0] (R24, R53). -/
abbrev CommandWord := BitVec 32

/-- One status sample: status register 2 in bits 31:16, status register 1 in bits 15:0 (R27, R40). -/
abbrev StatusWord := BitVec 32

/-- The timeout counter TMO and the budgets T_IDLE and T_ADDR, at the decided width TMO_W = 32 (R9, R19). -/
abbrev Counter := BitVec 32

end Sys2Proof
end

