-- ==== Sys2Proof/Syntax.lean ====
section
/-! DEFINITION. The names of the machine: operations, results, protocol events, peripheral actions, phases, and the instructions (the host commands).

The numeric codes of these names stand in Sys2Proof/Decode.lean. -/

namespace Sys2Proof

/-- The operation a command asks for (spec/30_encoding.md R54).
The reserved code 00 is no constructor: Accept refuses it (R14). -/
inductive Op where
  | ping
  | read
  | write
  deriving DecidableEq, Repr, Inhabited

/-- OperationResult (R57, R141): the only three outcomes of an operation; the code 11 is no constructor (U14). -/
inductive Result where
  | ok
  | noAck
  | timeout
  deriving DecidableEq, Repr, Inhabited

/-- ProtocolEvent: the eight events of the Bus Status Oracle (R58).
The code space is full, so no unrecognised event exists (R74). -/
inductive Event where
  | busBusy
  | busIdle
  | startSelected
  | addrTxSelected
  | addrRxSelected
  | byteTransmitted
  | rxNotEmpty
  | txEmpty
  deriving DecidableEq, Repr, Inhabited

/-- One action on the peripheral interface (R39, R59), with the byte it carries or the answer it got.
The code 0 (NONE) is no action and the code 7 is never emitted (U14). -/
inductive Action where
  /-- STATUS_RD with the 32-bit status word the environment answered (R40). -/
  | statusRd (answer : StatusWord)
  /-- START, the first one or the repeated one (R41). -/
  | start
  /-- STOP (R42). -/
  | stop
  /-- DATA_WR with the byte written to the data register (R43). -/
  | dataWr (payload : Byte)
  /-- DATA_RD with the byte the environment answered (R43). -/
  | dataRd (answer : Byte)
  /-- ACK_EN (R44). -/
  | ackEn
  deriving DecidableEq, Repr, Inhabited

/-- PHASE, the sequencer's program counter (spec/10_state.md R20): exactly the nineteen phases of spec/30_encoding.md R60 (D28, U8). -/
inductive Phase where
  | idle
  | busWait
  | start1
  | start1Wait
  | addrW
  | addrWWait
  | regSel
  | regSelWait
  | ackCfg
  | start2
  | start2Wait
  | addrR
  | addrRWait
  | rxWait
  | rxTake
  | txWait
  | txPut
  | btfWait
  | stop
  deriving DecidableEq, Repr, Inhabited

/-- The instructions: the host commands, with the operands of the public operation surface (R53, R66).
The operands are the numbers a caller gives; Sys2Proof/WellFormed.lean says which numbers are in range.
PING carries the REG and LEN fields of its word because Accept latches them (R56, R75), although no PING step reads them.
The ignored bit 23 (AX) is no operand: it is never latched (R55). -/
inductive Instr where
  | ping (addr reg len : Nat)
  | read (addr reg len : Nat)
  | write (addr reg len : Nat)
  deriving DecidableEq, Repr, Inhabited

namespace Instr

/-- The operation of a command. -/
def op : Instr → Op
  | ping _ _ _ => .ping
  | read _ _ _ => .read
  | write _ _ _ => .write

/-- The DeviceAddress operand. -/
def addr : Instr → Nat
  | ping a _ _ => a
  | read a _ _ => a
  | write a _ _ => a

/-- The RegisterIndex field. -/
def reg : Instr → Nat
  | ping _ r _ => r
  | read _ r _ => r
  | write _ r _ => r

/-- The transfer length field. -/
def len : Instr → Nat
  | ping _ _ n => n
  | read _ _ n => n
  | write _ _ n => n

/-- The command of an operation with the three operand fields. -/
def ofFields : Op → Nat → Nat → Nat → Instr
  | .ping, a, r, n => ping a r n
  | .read, a, r, n => read a r n
  | .write, a, r, n => write a r n

end Instr

end Sys2Proof
end

