-- ==== Sys2Proof/WellFormed.lean ====
section
/-! DEFINITION. Which instructions are well formed: the operand ranges of the public operation surface (spec/00_scope.md R8, spec/30_encoding.md R53, R66). -/

namespace Sys2Proof.Instr

/-- `address: 0..0x7F` (R8, R66). -/
def addrInRange (i : Instr) : Bool := decide (i.addr ≤ 0x7F)

/-- `register: 0..0xFF` (R8, R66); for PING, the width of the latched field (R56). -/
def regInRange (i : Instr) : Bool := decide (i.reg ≤ 0xFF)

/-- `length: 0..255` (R8, R66); for PING, the width of the latched field (R56). -/
def lenInRange (i : Instr) : Bool := decide (i.len ≤ 255)

/-- Every operand is in its range; inside the ranges every value is legal (R56, R68). -/
def wellFormed (i : Instr) : Bool := i.addrInRange && i.regInRange && i.lenInRange

end Sys2Proof.Instr
end

