-- ==== Sys2Proof/Decode.lean ====
section
/-! DEFINITION. The decoder of command words (spec/30_encoding.md R53 to R56, R62, R63, R68), the encoder (R66), the code tables (R54, R57 to R60) and the text of a command (R66). -/

namespace Sys2Proof

/-- Operation codes (R54). -/
def Op.code : Op → BitVec 2
  | .ping => 0b01#2
  | .read => 0b10#2
  | .write => 0b11#2

/-- The operation of a code; 00 is reserved (R54, R63). -/
def Op.ofCode (c : BitVec 2) : Option Op :=
  if c = 0b01#2 then some .ping
  else if c = 0b10#2 then some .read
  else if c = 0b11#2 then some .write
  else none

/-- Result codes (R57). -/
def Result.code : Result → BitVec 2
  | .ok => 0b00#2
  | .noAck => 0b01#2
  | .timeout => 0b10#2

/-- Protocol event codes (R58). -/
def Event.code : Event → BitVec 3
  | .busBusy => 0#3
  | .busIdle => 1#3
  | .startSelected => 2#3
  | .addrTxSelected => 3#3
  | .addrRxSelected => 4#3
  | .byteTransmitted => 5#3
  | .rxNotEmpty => 6#3
  | .txEmpty => 7#3

/-- Peripheral action codes (R59). -/
def Action.code : Action → BitVec 3
  | .statusRd _ => 1#3
  | .start => 2#3
  | .stop => 3#3
  | .dataWr _ => 4#3
  | .dataRd _ => 5#3
  | .ackEn => 6#3

/-- The action code of a step: NONE (0) for a step that performs no action (R59). -/
def stepActionCode : Option Action → BitVec 3
  | none => 0#3
  | some a => a.code

/-- Phase codes (R60). -/
def Phase.code : Phase → BitVec 5
  | .idle => 0#5
  | .busWait => 1#5
  | .start1 => 2#5
  | .start1Wait => 3#5
  | .addrW => 4#5
  | .addrWWait => 5#5
  | .regSel => 6#5
  | .regSelWait => 7#5
  | .ackCfg => 8#5
  | .start2 => 9#5
  | .start2Wait => 10#5
  | .addrR => 11#5
  | .addrRWait => 12#5
  | .rxWait => 13#5
  | .rxTake => 14#5
  | .txWait => 15#5
  | .txPut => 16#5
  | .btfWait => 17#5
  | .stop => 18#5

/-- The nineteen phases in the order of their codes (R60). -/
def Phase.all : List Phase :=
  [.idle, .busWait, .start1, .start1Wait, .addrW, .addrWWait, .regSel, .regSelWait, .ackCfg, .start2, .start2Wait, .addrR,
    .addrRWait, .rxWait, .rxTake, .txWait, .txPut, .btfWait, .stop]

/-- The phase of a 5-bit code; the codes 19 to 31 are unused (R60). -/
def Phase.ofCode (c : BitVec 5) : Option Phase := Phase.all[c.toNat]?

/-- Why a command word is illegal (R63). -/
inductive Reject where
  /-- `w[31:26] ≠ 0`. -/
  | reservedBits
  /-- `w[25:24] = 00`. -/
  | reservedOp
  deriving DecidableEq, Repr

/-- RSV, `w[31:26]` (R53). -/
def rsvField (w : CommandWord) : BitVec 6 := w.extractLsb' 26 6

/-- OP, `w[25:24]` (R53). -/
def opField (w : CommandWord) : BitVec 2 := w.extractLsb' 24 2

/-- ADDR, `w[22:16]`: the unshifted 7-bit address; bit 23 (AX) is left out (R53, R55). -/
def addrField (w : CommandWord) : Address := w.extractLsb' 16 7

/-- REG, `w[15:8]` (R53, R56). -/
def regField (w : CommandWord) : Byte := w.extractLsb' 8 8

/-- LEN, `w[7:0]` (R53, R56). -/
def lenField (w : CommandWord) : Byte := w.extractLsb' 0 8

/-- The decoding procedure (R68), total: every word is legal with one meaning or rejected by name (R63). -/
def decode (w : CommandWord) : Except Reject Instr :=
  if rsvField w ≠ 0#6 then .error .reservedBits
  else
    match Op.ofCode (opField w) with
    | none => .error .reservedOp
    | some op => .ok (Instr.ofFields op (addrField w).toNat (regField w).toNat (lenField w).toNat)

/-- The opcode map (R62): `w & 0xFF000000` for each operation. -/
def opcodeMatch : Op → CommandWord
  | .ping => 0x01000000#32
  | .read => 0x02000000#32
  | .write => 0x03000000#32

/-- The mask of the opcode map (R62). -/
def opcodeMask : CommandWord := 0xFF000000#32

/-- The word of a command (R66): `opcode | (a << 16) | (r << 8) | n`, the ignored bit 23 written as 0.
For PING the REG and LEN fields are written as the command carries them (R56). -/
def encode (i : Instr) : CommandWord :=
  opcodeMatch i.op ||| BitVec.ofNat 32 i.addr <<< 16 ||| BitVec.ofNat 32 i.reg <<< 8 ||| BitVec.ofNat 32 i.len

/-- The mnemonic of an operation (R62). -/
def Op.mnemonic : Op → String
  | .ping => "PING"
  | .read => "READ"
  | .write => "WRITE"

/-- The textual form of a command (R66): `PING a`, `READ a, r, n`, `WRITE a, r, n`, numbers in decimal. -/
def Instr.text (i : Instr) : String :=
  match i with
  | .ping a _ _ => i.op.mnemonic ++ " " ++ toString a
  | .read a r n => i.op.mnemonic ++ " " ++ toString a ++ ", " ++ toString r ++ ", " ++ toString n
  | .write a r n => i.op.mnemonic ++ " " ++ toString a ++ ", " ++ toString r ++ ", " ++ toString n

/-- The instruction the decoder reads from the command word whose bits are `w`, of which the table gives `nbits`;
every bit above them is 0.
The command port takes one 32-bit word, so there is no byte order to settle (R45, R53, R65). -/
def decodeTableWord (nbits w : Nat) : Option Instr :=
  match decode (BitVec.ofNat 32 (w % 2 ^ nbits)) with
  | .ok i => some i
  | .error _ => none

end Sys2Proof
end

