-- ==== Sys2Proof/Config.lean ====
section
/-! DEFINITION. What an instance of the block fixes (the open parameters of spec/00_scope.md R9) and the free values the spec leaves open (spec/93_implementation_defined.md U1, U2, U10).

An `opaque` constant has no body, so nothing in Lean can prove a value of it. -/

namespace Sys2Proof

/-- `HOST_MAP` (R9, R48): the host address of each register the host sees, `none` where it is not memory-mapped.
The spec gives the map no form; this one is a DESIGN CHOICE (log entry 15). -/
structure HostMap where
  /-- Where the command port CMD sits (R24, R48). -/
  cmd : Option Nat
  /-- Where the status port STATUS sits (R25, R48). -/
  status : Option Nat
  deriving DecidableEq, Repr, Inhabited

/-- `PERIPH_MAP` (R9, R48): the address of each peripheral register the block touches, `none` where it is not memory-mapped.
The spec gives the map no form; this one is a DESIGN CHOICE (log entry 15). -/
structure PeriphMap where
  /-- Where status register 1 sits (R27, R48). -/
  status1 : Option Nat
  /-- Where status register 2 sits (R27, R48). -/
  status2 : Option Nat
  /-- Where the data register sits (R28, R48). -/
  data : Option Nat
  /-- Where the register of the control bits START, STOP and acknowledge enable sits (R29, R48). -/
  control : Option Nat
  deriving DecidableEq, Repr, Inhabited

/-- The open parameters of a block instance (R9, R26): the two iteration budgets, the bit pattern of each of the seven pattern-bearing events, and the two address maps.
R9's TMO_W is the width of `Counter`, decided 32 (D11).
A state carries its instance's parameters, so that a claim about every state is a claim about every instance (log entry 2). -/
structure Params where
  /-- `T_IDLE`, the budget of the bus-idle wait. -/
  tIdle : Counter
  /-- `T_ADDR`, the budget of each address-phase wait. -/
  tAddr : Counter
  /-- `EVT_PATTERN[BUS_BUSY]`. -/
  patBusBusy : StatusWord
  /-- `EVT_PATTERN[START_SELECTED]`. -/
  patStartSelected : StatusWord
  /-- `EVT_PATTERN[ADDR_TX_SELECTED]`. -/
  patAddrTxSelected : StatusWord
  /-- `EVT_PATTERN[ADDR_RX_SELECTED]`. -/
  patAddrRxSelected : StatusWord
  /-- `EVT_PATTERN[BYTE_TRANSMITTED]`. -/
  patByteTransmitted : StatusWord
  /-- `EVT_PATTERN[RX_NOT_EMPTY]`. -/
  patRxNotEmpty : StatusWord
  /-- `EVT_PATTERN[TX_EMPTY]`. -/
  patTxEmpty : StatusWord
  /-- `HOST_MAP`; no rule reads it (R48, D23). -/
  hostMap : HostMap
  /-- `PERIPH_MAP`; no rule reads it (R48, D23). -/
  periphMap : PeriphMap
  deriving DecidableEq, Repr, Inhabited

/-- The parameters of the instance that `State.reset` describes: open (R9, D11, D12, D23, U3, U17), so no value is given (log entry 2). -/
opaque Config.params : Params

/-- What the environment answers to the `n`-th peripheral read when no scripted answer is left and the read is a STATUS_RD: any word (R71, U1; log entry 3). -/
opaque Config.statusAnswer : Nat → StatusWord

/-- The same for a DATA_RD: any byte (R43, U2; log entry 3). -/
opaque Config.dataAnswer : Nat → Byte

/-- What OP holds after the reset input: unspecified (R34, R166, U10; log entry 5). -/
opaque Config.freeOp : Nat → Op

/-- What ADDR holds after the reset input: unspecified (R34, R166, U10; log entry 5). -/
opaque Config.freeAddr : Nat → Address

/-- What REG holds after the reset input: unspecified (R34, R166, U10; log entry 5). -/
opaque Config.freeReg : Nat → Byte

/-- What LEN holds after the reset input: unspecified (R34, R166, U10; log entry 5). -/
opaque Config.freeLen : Nat → Byte

/-- What IDX holds after the reset input: unspecified (R34, R166, U10; log entry 5). -/
opaque Config.freeIdx : Nat → Byte

/-- What TMO holds after the reset input: unspecified (R34, R166, U10; log entry 5). -/
opaque Config.freeTmo : Nat → Counter

/-- What RESULT holds after the reset input: unspecified (R34, R166, U10; log entry 5). -/
opaque Config.freeResult : Nat → Result

/-- PRESUMED, for tests only: the candidate event patterns and register addresses of spec/93_implementation_defined.md G4, with given budgets and ports that are not memory-mapped.
No meaning uses it. -/
def Config.candidate (tIdle tAddr : Counter) : Params where
  tIdle := tIdle
  tAddr := tAddr
  patBusBusy := 0x00020000#32
  patStartSelected := 0x00030001#32
  patAddrTxSelected := 0x00070082#32
  patAddrRxSelected := 0x00030002#32
  patByteTransmitted := 0x00070084#32
  patRxNotEmpty := 0x00000040#32
  patTxEmpty := 0x00000080#32
  hostMap := ⟨none, none⟩
  periphMap := ⟨some 0x40005414, some 0x40005418, some 0x40005410, some 0x40005400⟩

end Sys2Proof
end

