-- ==== Sys2Proof/Machine/State.lean ====
section
/-! DEFINITION. The state of the machine, its reset, and the reasons a step can stop.

The nine registers of the block (spec/10_state.md R13) stand first.
Beside them stand, as plain data, what the block works on and against: the instance's parameters (R9), the caller-owned transfer buffer (R35), what the host will do and has seen (R70), what the environment will answer (R71), and the trace of the peripheral actions performed (R12, R39). -/

namespace Sys2Proof.Machine

/-- One step of the host, or the host's leave for the sequencer to take one (R11, R70).
A list of these in the state says which agent moves next, so that every interleaving of the two is some state (log entry 4). -/
inductive HostStep where
  /-- The host does nothing: the sequencer takes one step, if it has one. -/
  | run
  /-- The host writes a command word to the command port CMD (R24, R75). -/
  | offer (w : CommandWord)
  /-- The host reads the status port STATUS (R25). -/
  | readStatus
  /-- The host writes a byte of its own buffer (R38, R52). -/
  | bufWrite (i : Byte) (v : Byte)
  /-- The host reads a byte of its own buffer (R38). -/
  | bufRead (i : Byte)
  /-- The host provides a buffer of this many bytes for the transfers that follow (R38, R66, R181); what bytes it holds is the model's choice (log entry 21). -/
  | bufSize (n : Nat)
  /-- The reset input (R166, R167). -/
  | reset
  deriving DecidableEq, Repr

/-- What the host has seen of its own steps (R23, R25, R75). -/
inductive HostSeen where
  /-- An offered word and whether it was accepted. -/
  | offered (w : CommandWord) (accepted : Bool)
  /-- A value of the status port. -/
  | status (v : BitVec 4)
  /-- A byte read from the buffer. -/
  | byte (i : Byte) (v : Byte)
  deriving DecidableEq, Repr

/-- The state: plain data. -/
structure State where
  /-- OP[1:0], which operation runs (R14). -/
  op : Op
  /-- ADDR[6:0], the DeviceAddress (R15). -/
  addr : Address
  /-- REG[7:0], the RegisterIndex (R16). -/
  reg : Byte
  /-- LEN[7:0], the transfer length (R17). -/
  len : Byte
  /-- IDX[7:0], the number of buffer bytes already moved (R18). -/
  idx : Byte
  /-- TMO[31:0], the remaining iterations of the current bounded wait (R19). -/
  tmo : Counter
  /-- PHASE[4:0], the sequencer's program counter (R20). -/
  phase : Phase
  /-- RESULT[1:0], the outcome of the last finished operation (R21). -/
  result : Result
  /-- DONE[0], an operation has finished since the last Accept (R22). -/
  done : Bool
  /-- The instance's parameters T_IDLE, T_ADDR, EVT_PATTERN, HOST_MAP, PERIPH_MAP (R9, R26, R48); no step writes them. -/
  params : Params
  /-- The transfer buffer space, indices 0 to 254 (R35), in the canonical form of `Memory.wf`. -/
  buffer : List Host.Cell
  /-- The number of bytes of the buffer the host has provided (R38, U15). -/
  bufferSize : Nat
  /-- What the host will do, first step first; when it is empty the host stays silent (R70). -/
  script : List HostStep
  /-- What the host has seen, newest first. -/
  hostLog : List HostSeen
  /-- What the environment will answer to the next STATUS_RD actions, first answer first (R71). -/
  statusAnswers : List StatusWord
  /-- What the environment will answer to the next DATA_RD actions, first answer first (R43). -/
  dataAnswers : List Byte
  /-- The MODEL's own counter: the argument of the free values of Sys2Proof/Config.lean, advanced at each use (log entry 3). -/
  fresh : Nat
  /-- The peripheral actions performed so far, newest first, with the answers they got (R12, R39, R50). -/
  trace : List Action
  deriving DecidableEq, Repr

/-- The machine right after reset (R34, R166, R168): PHASE = IDLE and DONE = 0.
The spec leaves OP, ADDR, REG, LEN, IDX, TMO and RESULT unspecified; the values here are DESIGN CHOICE (log entry 1).
The parameters are open (log entry 2); the host has provided a whole buffer of 255 bytes and given no step (log entries 4 and 6); the environment has no scripted answer (log entry 3). -/
def State.reset : State where
  op := .ping
  addr := 0#7
  reg := 0#8
  len := 0#8
  idx := 0#8
  tmo := 0#32
  phase := .idle
  result := .ok
  done := false
  params := Config.params
  buffer := []
  bufferSize := 255
  script := []
  hostLog := []
  statusAnswers := []
  dataAnswers := []
  fresh := 0
  trace := []

/-- Why the machine stops with a fault. -/
inductive Fault where
  /-- Raised by a buffer access (`memRead`, `memWrite`, the host's own buffer steps) at index 255, which the buffer space 0..254 does not have (R35, R36, R37).
  Safe: the machine stops where the spec gives no access; no sequencer step of a run reaches it, since IDX < LEN there (R18). -/
  | bufferIndexOutside
  /-- Raised by PING's meaning in REGSEL_WAIT when TX_EMPTY is satisfied: the transition table has no row for it (R86, R88).
  Safe: no run reaches REGSEL_WAIT with OP = PING (R88). -/
  | noTransition
  deriving DecidableEq, Repr

/-- Why the machine refuses to give a step a meaning. -/
inductive Refusal where
  /-- Raised by an arm of `exec` whose instruction has no meaning yet; no arm does so in this model. Safe. -/
  | notModelled (mnemonic : String)
  /-- Raised by RX_TAKE and TX_PUT when IDX lies beyond the bytes of the buffer the host has provided: U15 says `refuse` (R38, R181).
  Safe: the spec does not say what memory such an access reaches. -/
  | bufferTooShort
  deriving DecidableEq, Repr

end Sys2Proof.Machine
end

