-- ==== Sys2Proof/Machine/Flags.lean ====
section
/-! DEFINITION. The flags and ports computed from the registers (spec/10_state.md R21 to R25), and what the trace tells of the peripheral's hidden state (R31, R32). -/

namespace Sys2Proof.Machine

/-- BUSY = (PHASE ≠ IDLE) (R23). -/
def State.busy (s : State) : Bool := decide (s.phase ≠ .idle)

/-- CMD_READY = (PHASE = IDLE) (R23). -/
def State.cmdReady (s : State) : Bool := decide (s.phase = .idle)

/-- The status port STATUS[3:0]: RESULT in bits 3:2, DONE in bit 1, BUSY in bit 0 (R25). -/
def State.statusPort (s : State) : BitVec 4 := s.result.code ++ BitVec.ofBool s.done ++ BitVec.ofBool s.busy

/-- What a blocking call returns: RESULT once BUSY = 0 and DONE = 1, nothing before (R22, R25, R66, R188). -/
def State.returned (s : State) : Option Result := if s.busy = false ∧ s.done = true then some s.result else none

/-- Bus ownership as far as the block's actions go (R32, R153): the newest of the START and STOP actions is a START. -/
def busHeld : List Action → Bool
  | [] => false
  | .start :: _ => true
  | .stop :: _ => false
  | .statusRd _ :: older => busHeld older
  | .dataWr _ :: older => busHeld older
  | .dataRd _ :: older => busHeld older
  | .ackEn :: older => busHeld older

/-- Continuous-acknowledgment mode as far as the block's actions go (R31, R153, R178): an ACK_EN was issued, and no action turns the mode off. -/
def ackTurnedOn (trace : List Action) : Bool := trace.contains .ackEn

/-- The last byte the block wrote to the peripheral's data register, if it wrote one (R28). -/
def lastDataWritten : List Action → Option Byte
  | [] => none
  | .dataWr b :: _ => some b
  | .start :: older => lastDataWritten older
  | .stop :: older => lastDataWritten older
  | .statusRd _ :: older => lastDataWritten older
  | .dataRd _ :: older => lastDataWritten older
  | .ackEn :: older => lastDataWritten older

/-- The bytes the block wrote to the peripheral's data register, newest first (R43). -/
def bytesSent (trace : List Action) : List Byte :=
  trace.filterMap fun a =>
    match a with
    | .dataWr b => some b
    | .dataRd _ => none
    | .statusRd _ => none
    | .start => none
    | .stop => none
    | .ackEn => none

end Sys2Proof.Machine
end

