-- ==== Sys2Proof/Machine/Operands.lean ====
section
/-! DEFINITION. The operand latches and the bytes made from them: what Accept latches (spec/40_oracle_and_primitives.md R75), the command the latches hold, the address byte on the wire (spec/30_encoding.md R61). -/

namespace Sys2Proof.Machine

/-- The direction bit of an address byte (R61): 0 = write, 1 = read. -/
inductive Direction where
  | write
  | read
  deriving DecidableEq, Repr

/-- The value of the direction bit (R61). -/
def Direction.bit : Direction → BitVec 1
  | .write => 0#1
  | .read => 1#1

/-- `Wire(A, d) = {A[6:0], d}` (R61). -/
def wire (a : Address) (d : Direction) : Byte := a ++ d.bit

/-- The operands of a command copied into OP, ADDR, REG and LEN (R75); an operand in range is latched as it is. -/
def State.latch (i : Instr) (s : State) : State :=
  { s with
    op := i.op
    addr := BitVec.ofNat 7 i.addr
    reg := BitVec.ofNat 8 i.reg
    len := BitVec.ofNat 8 i.len }

/-- The command the latches hold: the one that runs while PHASE is not IDLE (R14 to R17). -/
def State.running (s : State) : Instr := Instr.ofFields s.op s.addr.toNat s.reg.toNat s.len.toNat

/-- `LEN > 1`, unsigned (R86, R87). -/
def State.lenAboveOne (s : State) : Bool := decide (1 < s.len.toNat)

/-- `LEN = 0` (R86, R87, R110). -/
def State.lenZero (s : State) : Bool := decide (s.len = 0#8)

/-- `IDX + 1 = LEN`: the byte at IDX is the last one (R112, R128). -/
def State.lastByte (s : State) : Bool := decide (s.idx + 1#8 = s.len)

end Sys2Proof.Machine
end

