-- ==== Sys2Proof/Machine/Oracle.lean ====
section
/-! DEFINITION. The Bus Status Oracle: the verdict of an event on a status word (spec/40_oracle_and_primitives.md R69, R72). -/

namespace Sys2Proof

/-- The defining bit pattern of an event; BUS_IDLE has none (R58, R72). -/
def Params.pattern (p : Params) : Event → Option StatusWord
  | .busBusy => some p.patBusBusy
  | .busIdle => none
  | .startSelected => some p.patStartSelected
  | .addrTxSelected => some p.patAddrTxSelected
  | .addrRxSelected => some p.patAddrRxSelected
  | .byteTransmitted => some p.patByteTransmitted
  | .rxNotEmpty => some p.patRxNotEmpty
  | .txEmpty => some p.patTxEmpty

namespace Machine

/-- Every bit of the pattern is 1 in the sample (R72, D12). -/
def satisfies (pat s : StatusWord) : Bool := s &&& pat == pat

/-- `Match(e, s)` (R72): the pattern is satisfied, and BUS_IDLE is the complement of BUS_BUSY. -/
def oracleMatch (p : Params) (e : Event) (s : StatusWord) : Bool :=
  match p.pattern e with
  | some pat => satisfies pat s
  | none => !satisfies p.patBusBusy s

end Machine

end Sys2Proof
end

