-- ==== Sys2Proof/Machine/Ops.lean ====
section
/-! DEFINITION. The shared operations: the transfer buffer, the peripheral actions, Accept and Finish, raising a failure, the two kinds of poll, the host's own accesses and the reset input. -/

namespace Sys2Proof.Machine

/-! ### The transfer buffer (spec/20_memory.md R35 to R37) -/

/-- The transfer buffer space as a sparse list of cells, in the canonical form of `Memory.wf`. -/
abbrev Memory := List Host.Cell

/-- The number of indices of the buffer space: 0 to 254 (R8, R35). -/
def bufferSpace : Nat := 255

/-- What a byte nothing has written reads as: DESIGN CHOICE, the spec gives the caller's buffer no first contents (log entry 6). -/
def Memory.unlisted : Byte := 0#8

/-- The byte at an index. -/
def Memory.get : Memory → Nat → Byte
  | [], _ => Memory.unlisted
  | (k, v) :: m, i => if k = i then v else Memory.get m i

/-- The memory with one byte written; writing the unlisted value takes the entry out. -/
def Memory.put : Memory → Nat → Byte → Memory
  | [], i, v => if v = Memory.unlisted then [] else [(i, v)]
  | (k, w) :: m, i, v =>
    if i < k then if v = Memory.unlisted then (k, w) :: m else (i, v) :: (k, w) :: m
    else if i = k then if v = Memory.unlisted then m else (i, v) :: m
    else (k, w) :: Memory.put m i v

/-- The canonical form: indices strictly rising and inside the buffer space, no entry equal to what an unlisted index reads as. -/
abbrev Memory.wf (m : Memory) : Prop :=
  m.Pairwise (fun c d => c.1 < d.1) ∧ ∀ c ∈ m, c.2 ≠ Memory.unlisted ∧ c.1 < bufferSpace

/-- `MemRead(i, 1)` (R36): no side effect; it stops at an index outside the space and beyond the bytes the host provided (U15). -/
def memRead (i : Byte) (s : State) : Host.Outcome Byte Fault Refusal :=
  if bufferSpace ≤ i.toNat then .fault .bufferIndexOutside
  else if s.bufferSize ≤ i.toNat then .refused .bufferTooShort
  else .next (Memory.get s.buffer i.toNat)

/-- The state with one byte of the buffer written. -/
def State.stored (i : Nat) (v : Byte) (s : State) : State := { s with buffer := Memory.put s.buffer i v }

/-- `MemWrite(i, 1, v)` (R37), with the stops of `memRead`. -/
def memWrite (i v : Byte) (s : State) : Host.Outcome State Fault Refusal :=
  if bufferSpace ≤ i.toNat then .fault .bufferIndexOutside
  else if s.bufferSize ≤ i.toNat then .refused .bufferTooShort
  else .next (s.stored i.toNat v)

/-! ### The peripheral actions (R39 to R44) -/

/-- `Act(a)` for an action without an answer: START, STOP, DATA_WR, ACK_EN (R41 to R44). -/
def State.act (a : Action) (s : State) : State := { s with trace := a :: s.trace }

/-- The status word the environment answers next: the scripted one, else any word (R40, R71). -/
def State.statusWord (s : State) : StatusWord :=
  match s.statusAnswers with
  | w :: _ => w
  | [] => Config.statusAnswer s.fresh

/-- The state after the action STATUS_RD, which got `s.statusWord` (R40, R71). -/
def State.sampled (s : State) : State :=
  { s with
    trace := .statusRd s.statusWord :: s.trace
    statusAnswers := s.statusAnswers.tail
    fresh := s.fresh + 1 }

/-- The byte the environment answers next: the scripted one, else any byte (R43). -/
def State.dataByte (s : State) : Byte :=
  match s.dataAnswers with
  | b :: _ => b
  | [] => Config.dataAnswer s.fresh

/-- The state after the action DATA_RD, which got `s.dataByte` (R43). -/
def State.dataTaken (s : State) : State :=
  { s with
    trace := .dataRd s.dataByte :: s.trace
    dataAnswers := s.dataAnswers.tail
    fresh := s.fresh + 1 }

/-! ### PHASE, Accept, Finish and raising a failure -/

/-- `PHASE <- p` (R10, R20). -/
def State.goto (p : Phase) (s : State) : State := { s with phase := p }

/-- `RESULT <- r` (R21). -/
def State.setResult (r : Result) (s : State) : State := { s with result := r }

/-- `TMO <- n` (R19). -/
def State.load (n : Counter) (s : State) : State := { s with tmo := n }

/-- `IDX <- IDX + 1` (R18, R89). -/
def State.advance (s : State) : State := { s with idx := s.idx + 1#8 }

/-- Accept of a command (R75); RESULT is left unchanged and no action is performed. -/
def State.accept (i : Instr) (s : State) : State :=
  { s.latch i with
    idx := 0#8
    tmo := s.params.tIdle
    done := false
    phase := .busWait }

/-- `Finish()` (R80). -/
def State.finish (s : State) : State := { s with done := true, phase := .idle }

/-- `raise NoAck` and `raise Timeout`, the abort path (R150): this block's taking of an exception.
It writes RESULT and finishes in the same step, with no further action; nothing is saved and nothing is vectored, so there is no return to model (R152).
The one failure that does not end so, PING's NOACK, is `failThroughStop`. -/
def State.raiseFailure (r : Result) (s : State) : State := (s.setResult r).finish

/-- PING's NOACK (R84, R97, R150): RESULT is written and the STOP phase follows. -/
def State.failThroughStop (r : Result) (s : State) : State := (s.setResult r).goto .stop

/-! ### The two kinds of wait -/

/-- The outcome of a poll step (R76, R77). -/
inductive Poll where
  | satisfied
  | pending
  | expired
  deriving DecidableEq, Repr

/-- The bounded poll step (R76): no STATUS_RD when TMO = 0; else sample, compare, then decrement.
The test for expiry is on the decremented value. -/
def boundedPoll (e : Event) (s : State) : Poll × State :=
  if s.tmo = 0#32 then (.expired, s)
  else if oracleMatch s.params e s.statusWord then (.satisfied, s.sampled)
  else if s.tmo - 1#32 = 0#32 then (.expired, s.sampled.load (s.tmo - 1#32))
  else (.pending, s.sampled.load (s.tmo - 1#32))

/-- The unbounded poll step (R77): it never expires. -/
def unboundedPoll (e : Event) (s : State) : Poll × State :=
  if oracleMatch s.params e s.statusWord then (.satisfied, s.sampled) else (.pending, s.sampled)

/-! ### The host's own accesses and the reset input -/

/-- The host sees something. -/
def State.note (h : HostSeen) (s : State) : State := { s with hostLog := h :: s.hostLog }

/-- The host writes a byte of its buffer (R38, R52); the host's own access is bounded by the space only. -/
def hostBufWrite (i v : Byte) (s : State) : Host.Outcome State Fault Refusal :=
  if bufferSpace ≤ i.toNat then .fault .bufferIndexOutside
  else .next (s.stored i.toNat v)

/-- The host reads a byte of its buffer (R38). -/
def hostBufRead (i : Byte) (s : State) : Host.Outcome State Fault Refusal :=
  if bufferSpace ≤ i.toNat then .fault .bufferIndexOutside
  else .next (s.note (.byte i (Memory.get s.buffer i.toNat)))

/-- The host provides a buffer of `n` bytes (R38, R181).
DESIGN CHOICE (log entry 21): the spec does not say what bytes the new buffer holds; the model keeps those of the one before and changes the size only, and a host whose buffer holds others writes them with `hostBufWrite`. -/
def State.provide (n : Nat) (s : State) : State := { s with bufferSize := n }

/-- The reset input (R166, R167): PHASE <- IDLE, DONE <- 0, every other register of the block unspecified (a free value, log entry 5).
No peripheral action is performed; the buffer, the trace and the environment stay as they are. -/
def State.resetInput (s : State) : State :=
  { s with
    op := Config.freeOp s.fresh
    addr := Config.freeAddr s.fresh
    reg := Config.freeReg s.fresh
    len := Config.freeLen s.fresh
    idx := Config.freeIdx s.fresh
    tmo := Config.freeTmo s.fresh
    result := Config.freeResult s.fresh
    phase := .idle
    done := false
    fresh := s.fresh + 1 }

end Sys2Proof.Machine
end

