-- ==== Sys2Proof/Machine/Phases.lean ====
section
/-! DEFINITION. The step rule of each phase (spec/40_oracle_and_primitives.md R78 to R86, spec/42_read.md R108 to R112, spec/43_write.md R127 to R129): the rows of the transition table R88.

A phase rule that depends on the operation takes it as an argument: each command's meaning passes its own. -/

namespace Sys2Proof.Machine

/-- An unbounded wait for `e` that moves to `p` (R77). -/
def waitFor (e : Event) (p : Phase) (s : State) : State :=
  match unboundedPoll e s with
  | (.satisfied, s1) => s1.goto p
  | (.pending, s1) => s1
  | (.expired, s1) => s1

/-! ### The phases every operation shares -/

/-- BUSWAIT (R78): on expiry TIMEOUT is raised, with no START and no STOP. -/
def busWait (s : State) : State :=
  match boundedPoll .busIdle s with
  | (.satisfied, s1) => s1.goto .start1
  | (.pending, s1) => s1
  | (.expired, s1) => s1.raiseFailure .timeout

/-- START1 (R81). -/
def start1 (s : State) : State := (s.act .start).goto .start1Wait

/-- START1_WAIT (R82). -/
def start1Wait (s : State) : State := waitFor .startSelected .addrW s

/-- ADDRW (R83): the address byte with the write direction. -/
def addrW (s : State) : State := ((s.act (.dataWr (wire s.addr .write))).load s.params.tAddr).goto .addrWWait

/-- ADDRW_WAIT (R84): PING goes on to STOP with either result; READ and WRITE go on to REGSEL, or raise NOACK with no STOP (R151). -/
def addrWWait (op : Op) (s : State) : State :=
  match boundedPoll .addrTxSelected s with
  | (.satisfied, s1) =>
    match op with
    | .ping => (s1.setResult .ok).goto .stop
    | .read => s1.goto .regSel
    | .write => s1.goto .regSel
  | (.pending, s1) => s1
  | (.expired, s1) =>
    match op with
    | .ping => s1.failThroughStop .noAck
    | .read => s1.raiseFailure .noAck
    | .write => s1.raiseFailure .noAck

/-- REGSEL (R85): the register index as one data byte. -/
def regSel (s : State) : State := (s.act (.dataWr s.reg)).goto .regSelWait

/-- REGSEL_WAIT (R86): the first test of READ's and WRITE's byte loops.
The table has no row for a satisfied poll with OP = PING (R88), which no run reaches. -/
def regSelWait (op : Op) (s : State) : Host.Outcome State Fault Refusal :=
  match unboundedPoll .txEmpty s with
  | (.satisfied, s1) =>
    match op with
    | .ping => .fault .noTransition
    | .read => .next (s1.goto (if s.lenAboveOne then .ackCfg else .start2))
    | .write => .next (s1.goto (if s.lenZero then .btfWait else .txWait))
  | (.pending, s1) => .next s1
  | (.expired, s1) => .next s1

/-- STOP (R79): the last action of an operation; RESULT is not touched. -/
def stop (s : State) : State := (s.act .stop).finish

/-! ### The phases only READ uses -/

/-- ACKCFG (R108). -/
def ackCfg (s : State) : State := (s.act .ackEn).goto .start2

/-- START2, the repeated START (R109). -/
def start2 (s : State) : State := (s.act .start).goto .start2Wait

/-- START2_WAIT (R109). -/
def start2Wait (s : State) : State := waitFor .startSelected .addrR s

/-- ADDRR (R110): the address byte with the read direction; TMO is loaded afresh. -/
def addrR (s : State) : State := ((s.act (.dataWr (wire s.addr .read))).load s.params.tAddr).goto .addrRWait

/-- ADDRR_WAIT (R110): on expiry NOACK is raised, with no STOP. -/
def addrRWait (s : State) : State :=
  match boundedPoll .addrRxSelected s with
  | (.satisfied, s1) => if s.lenZero then (s1.setResult .ok).goto .stop else s1.goto .rxWait
  | (.pending, s1) => s1
  | (.expired, s1) => s1.raiseFailure .noAck

/-- RX_WAIT (R111). -/
def rxWait (s : State) : State := waitFor .rxNotEmpty .rxTake s

/-- What RX_TAKE does after the byte is in the buffer (R112). -/
def rxAfter (last : Bool) (s : State) : State :=
  if last then (s.advance.setResult .ok).goto .stop else s.advance.goto .rxWait

/-- RX_TAKE (R112): one DATA_RD, one buffer write at IDX, IDX + 1. -/
def rxTake (s : State) : Host.Outcome State Fault Refusal :=
  match memWrite s.idx s.dataByte s.dataTaken with
  | .next s1 => .next (rxAfter s.lastByte s1)
  | .fault f => .fault f
  | .refused r => .refused r

/-! ### The phases only WRITE uses -/

/-- TX_WAIT (R127). -/
def txWait (s : State) : State := waitFor .txEmpty .txPut s

/-- TX_PUT (R128): one buffer read at IDX, one DATA_WR, IDX + 1. -/
def txPut (s : State) : Host.Outcome State Fault Refusal :=
  match memRead s.idx s with
  | .next v => .next ((s.act (.dataWr v)).advance.goto (if s.lastByte then .btfWait else .txWait))
  | .fault f => .fault f
  | .refused r => .refused r

/-- BTF_WAIT (R129): the only way to WRITE's STOP. -/
def btfWait (s : State) : State :=
  match unboundedPoll .byteTransmitted s with
  | (.satisfied, s1) => (s1.setResult .ok).goto .stop
  | (.pending, s1) => s1
  | (.expired, s1) => s1

end Sys2Proof.Machine
end

