-- ==== Sys2Proof/Machine/Ping.lean ====
section
/-! DEFINITION. PING, the presence check (spec/41_ping.md R93 to R102). -/

namespace Sys2Proof.Machine

/-- One step of the command PING (R70, R93; its steps R94 to R98).
In IDLE it is Accept (R75); in every other phase it is that phase's step rule, which reads the latches.
The first arms are the phases of PING's program in its order.
The last arms are phases no run reaches with this operation (R88): there the step rule of the phase applies, as R70 says of every phase. -/
def execPing (addr reg len : Nat) (s : State) : Host.Outcome State Fault Refusal :=
  match s.phase with
  | .idle => .next (s.accept (.ping addr reg len))
  | .busWait => .next (busWait s)
  | .start1 => .next (start1 s)
  | .start1Wait => .next (start1Wait s)
  | .addrW => .next (addrW s)
  | .addrWWait => .next (addrWWait .ping s)
  | .stop => .next (stop s)
  | .regSel => .next (regSel s)
  | .regSelWait => regSelWait .ping s
  | .ackCfg => .next (ackCfg s)
  | .start2 => .next (start2 s)
  | .start2Wait => .next (start2Wait s)
  | .addrR => .next (addrR s)
  | .addrRWait => .next (addrRWait s)
  | .rxWait => .next (rxWait s)
  | .rxTake => rxTake s
  | .txWait => .next (txWait s)
  | .txPut => txPut s
  | .btfWait => .next (btfWait s)

end Sys2Proof.Machine
end

