-- ==== Sys2Proof/Machine/Read.lean ====
section
/-! DEFINITION. READ, the register read (spec/42_read.md R105 to R117). -/

namespace Sys2Proof.Machine

/-- One step of the command READ (R70, R105; its steps R106 to R113, R117).
In IDLE it is Accept (R75); in every other phase it is that phase's step rule, which reads the latches.
The first arms are the phases of READ's program in its order.
The last arms are phases no run reaches with this operation (R88): there the step rule of the phase applies, as R70 says of every phase. -/
def execRead (addr reg len : Nat) (s : State) : Host.Outcome State Fault Refusal :=
  match s.phase with
  | .idle => .next (s.accept (.read addr reg len))
  | .busWait => .next (busWait s)
  | .start1 => .next (start1 s)
  | .start1Wait => .next (start1Wait s)
  | .addrW => .next (addrW s)
  | .addrWWait => .next (addrWWait .read s)
  | .regSel => .next (regSel s)
  | .regSelWait => regSelWait .read s
  | .ackCfg => .next (ackCfg s)
  | .start2 => .next (start2 s)
  | .start2Wait => .next (start2Wait s)
  | .addrR => .next (addrR s)
  | .addrRWait => .next (addrRWait s)
  | .rxWait => .next (rxWait s)
  | .rxTake => rxTake s
  | .stop => .next (stop s)
  | .txWait => .next (txWait s)
  | .txPut => txPut s
  | .btfWait => .next (btfWait s)

end Sys2Proof.Machine
end

