-- ==== Sys2Proof/Machine/Write.lean ====
section
/-! DEFINITION. WRITE, the register write (spec/43_write.md R125 to R132). -/

namespace Sys2Proof.Machine

/-- One step of the command WRITE (R70, R125; its steps R126 to R130).
In IDLE it is Accept (R75); in every other phase it is that phase's step rule, which reads the latches.
The first arms are the phases of WRITE's program in its order.
The last arms are phases no run reaches with this operation (R88): there the step rule of the phase applies, as R70 says of every phase. -/
def execWrite (addr reg len : Nat) (s : State) : Host.Outcome State Fault Refusal :=
  match s.phase with
  | .idle => .next (s.accept (.write addr reg len))
  | .busWait => .next (busWait s)
  | .start1 => .next (start1 s)
  | .start1Wait => .next (start1Wait s)
  | .addrW => .next (addrW s)
  | .addrWWait => .next (addrWWait .write s)
  | .regSel => .next (regSel s)
  | .regSelWait => regSelWait .write s
  | .txWait => .next (txWait s)
  | .txPut => txPut s
  | .btfWait => .next (btfWait s)
  | .stop => .next (stop s)
  | .ackCfg => .next (ackCfg s)
  | .start2 => .next (start2 s)
  | .start2Wait => .next (start2Wait s)
  | .addrR => .next (addrR s)
  | .addrRWait => .next (addrRWait s)
  | .rxWait => .next (rxWait s)
  | .rxTake => rxTake s

end Sys2Proof.Machine
end

