-- ==== Sys2Proof/Machine/Dispatch.lean ====
section
/-! DEFINITION. The dispatch of an instruction to its meaning. -/

namespace Sys2Proof.Machine

def exec (i : Instr) (s : State) : Host.Outcome State Fault Refusal :=
  match i with
  | .ping addr reg len => Sys2Proof.Machine.execPing addr reg len s
  | .read addr reg len => Sys2Proof.Machine.execRead addr reg len s
  | .write addr reg len => Sys2Proof.Machine.execWrite addr reg len s

end Sys2Proof.Machine
end

