-- ==== Sys2Proof/Machine/Agents.lean ====
section
/-! DEFINITION. The steps of the agents (spec/40_oracle_and_primitives.md R70): the sequencer's, the host's, and which of them a step of the machine takes. -/

namespace Sys2Proof.Machine

/-- The sequencer's step: none when PHASE = IDLE, else one step of the command the latches hold (R70). -/
def sequencerStep (s : State) : Host.Outcome State Fault Refusal :=
  match s.phase with
  | .idle => .next s
  | _ => exec s.running s

/-- The host offers a command word (R75).
A legal word offered in IDLE runs the command's first step, Accept; an illegal word, and any word offered while PHASE is not IDLE, changes nothing but what the host sees (R63, log entry 8). -/
def offer (w : CommandWord) (s : State) : Host.Outcome State Fault Refusal :=
  match s.cmdReady, decode w with
  | true, .ok i => exec i (s.note (.offered w true))
  | true, .error _ => .next (s.note (.offered w false))
  | false, _ => .next (s.note (.offered w false))

/-- One step of the host (R70). -/
def hostStep (h : HostStep) (s : State) : Host.Outcome State Fault Refusal :=
  match h with
  | .run => sequencerStep s
  | .offer w => offer w s
  | .readStatus => .next (s.note (.status s.statusPort))
  | .bufWrite i v => hostBufWrite i v s
  | .bufRead i => hostBufRead i s
  | .bufSize n => .next (s.provide n)
  | .reset => .next s.resetInput

/-- The agent whose turn it is takes its step: the host's next scripted step, else the sequencer's (log entry 4). -/
def agentStep (s : State) : Host.Outcome State Fault Refusal :=
  match s.script with
  | [] => sequencerStep s
  | h :: rest => hostStep h { s with script := rest }

/-- The state in which the host's next step offers the word `w`, `nbits` of which the table gives, and the block is ready to accept it (log entry 7). -/
def State.offering (nbits w : Nat) (s : State) : State :=
  { s with phase := .idle, script := .offer (BitVec.ofNat 32 (w % 2 ^ nbits)) :: s.script }

end Sys2Proof.Machine
end

