-- ==== Sys2Proof/Machine/Step.lean ====
section
/-! DEFINITION. One step of the machine (spec/40_oracle_and_primitives.md R70), and how the host places a command for the next step. -/

namespace Sys2Proof.Machine

/-- One atomic step of one agent (R70). -/
def step (s : State) : Host.Outcome State Fault Refusal := agentStep s

/-- `s` with the command word `w` offered on the command port by the host's next step, PHASE being IDLE so that it is accepted (R24, R52, R75; log entry 7). -/
def State.withFetchWord (s : State) (nbits w : Nat) : State := s.offering nbits w

end Sys2Proof.Machine
end

