-- ==== Sys2Proof/Machine/Call.lean ====
section
/-! DEFINITION. A blocking call of an operation, as a host performs it on the machine (spec/30_encoding.md R66): offer the command word, wait until it is accepted, wait for DONE, read RESULT.

A host program is not the block's (R5, R67): it is what the host does between and during the machine's steps. -/

namespace Sys2Proof.Machine

/-- How a host program ends (log entry 22). -/
inductive HostRun (α : Type) where
  /-- It has its answer, with the machine in this state. -/
  | finished (a : α) (s : State)
  /-- Its patience is used up and it still waits: the operation may come to its end later, or hang (R161). -/
  | waiting (s : State)
  /-- The machine stopped with a fault. -/
  | fault (f : Fault)
  /-- The machine refused a step. -/
  | refused (r : Refusal)
  deriving DecidableEq, Repr

/-- One host program after another. -/
def HostRun.andThen {α β : Type} (m : HostRun α) (next : α → State → HostRun β) : HostRun β :=
  match m with
  | .finished a s => next a s
  | .waiting s => .waiting s
  | .fault f => .fault f
  | .refused r => .refused r

/-- The host waits until it sees what it waits for, the machine taking at most `patience` steps meanwhile (log entry 22).
It sees the ports only, and seeing them changes nothing of the block (R25). -/
def waitUntil {α : Type} (seen : State → Option α) : Nat → State → HostRun α
  | 0, s =>
    match seen s with
    | some a => .finished a s
    | none => .waiting s
  | patience + 1, s =>
    match seen s with
    | some a => .finished a s
    | none =>
      match step s with
      | .next t => waitUntil seen patience t
      | .fault f => .fault f
      | .refused r => .refused r

/-- What the host sees of CMD_READY: something once it is 1 (R23). -/
def State.ready (s : State) : Option Unit := if s.cmdReady then some () else none

/-- The host offers the word of a command (R24, R75); an offer that does not make the block busy was not accepted. -/
def offerCommand (i : Instr) (s : State) : HostRun Unit :=
  match step { s with script := .offer (encode i) :: s.script } with
  | .next t => if t.busy then .finished () t else .waiting t
  | .fault f => .fault f
  | .refused r => .refused r

/-- The call `op(...) -> result` (R66): wait until the block takes commands, offer the word, wait for BUSY = 0 and DONE = 1, and return RESULT (R25). -/
def call (patience : Nat) (i : Instr) (s : State) : HostRun Result :=
  (waitUntil State.ready patience s).andThen fun _ t =>
    (offerCommand i t).andThen fun _ u => waitUntil State.returned patience u

end Sys2Proof.Machine
end

