-- ==== Sys2Proof/Machine/Scan.lean ====
section
/-! DEFINITION. `scan()`, a host program and no command of the block (spec/41_ping.md R104, spec/30_encoding.md R67): the commands it issues, the result each PING returns, and what it reports. -/

namespace Sys2Proof.Machine

/-- The candidates of the scan: 0x00 to 0x7E, ascending; 0x7F is not probed (R104, C6). -/
def scanCandidates : List Nat := List.range 0x7F

/-- The command a candidate is probed with: `PING c`, the candidate unshifted (R104, C1). -/
def scanCommand (c : Nat) : Instr := .ping c 0 0

/-- The command words the scan issues, in order (R67, R104). -/
def scanWords : List CommandWord := scanCandidates.map fun c => encode (scanCommand c)

/-- What the scan reports, given the result of each candidate's PING: the candidates whose result is OK (R104). -/
def scanReport (results : List (Nat × Result)) : List Nat :=
  (results.filter fun r => r.2 == .ok).map fun r => r.1

/-- The host calls PING for each candidate, each after the one before has finished, and records the RESULT of each (R67, R104).
DESIGN CHOICE (log entry 23): the records are handed over at the end only; where one PING does not finish, the ending (`waiting`, `fault`, `refused`) carries none of the records made before it. -/
def scanResults (patience : Nat) : List Nat → State → HostRun (List (Nat × Result))
  | [], s => .finished [] s
  | c :: cs, s =>
    (call patience (scanCommand c) s).andThen fun r t =>
      (scanResults patience cs t).andThen fun rs u => .finished ((c, r) :: rs) u

/-- `scan()` (R104): it probes every candidate and reports those whose RESULT is OK, all together at the end (DESIGN CHOICE, log entry 23).
It holds no state of its own: all it carries from one PING to the next is the machine. -/
def scan (patience : Nat) (s : State) : HostRun (List Nat) :=
  (scanResults patience scanCandidates s).andThen fun results t => .finished (scanReport results) t

end Sys2Proof.Machine
end

