-- ==== Sys2Proof/Safety.lean ====
section
/-! DEFINITION. What counts as a sound state and a run, in the terms the statements use: the machine's invariant, the transition table as a relation, runs of many steps, and the named premises about the host and the environment. -/

namespace Sys2Proof.Machine

/-! ### The phases by kind (spec/30_encoding.md R60) -/

/-- The event a wait phase polls (R60). -/
def awaited : Phase → Option Event
  | .busWait => some .busIdle
  | .start1Wait => some .startSelected
  | .addrWWait => some .addrTxSelected
  | .regSelWait => some .txEmpty
  | .start2Wait => some .startSelected
  | .addrRWait => some .addrRxSelected
  | .rxWait => some .rxNotEmpty
  | .txWait => some .txEmpty
  | .btfWait => some .byteTransmitted
  | .idle => none
  | .start1 => none
  | .addrW => none
  | .regSel => none
  | .ackCfg => none
  | .start2 => none
  | .addrR => none
  | .rxTake => none
  | .txPut => none
  | .stop => none

/-- The three bounded waits (R77). -/
def boundedWait (p : Phase) : Bool := p == .busWait || p == .addrWWait || p == .addrRWait

/-- The six unbounded waits (R77, R161). -/
def unboundedWait (p : Phase) : Bool :=
  p == .start1Wait || p == .regSelWait || p == .start2Wait || p == .rxWait || p == .txWait || p == .btfWait

/-- The phases an operation can be in (R88): ACKCFG to RX_TAKE only READ, TX_WAIT to BTF_WAIT only WRITE, REGSEL and REGSEL_WAIT not PING. -/
def phaseOf (op : Op) (p : Phase) : Bool :=
  match p with
  | .idle | .busWait | .start1 | .start1Wait | .addrW | .addrWWait | .stop => true
  | .regSel | .regSelWait => op != .ping
  | .ackCfg | .start2 | .start2Wait | .addrR | .addrRWait | .rxWait | .rxTake => op == .read
  | .txWait | .txPut | .btfWait => op == .write

/-! ### The invariant -/

/-- Where IDX stands in each phase (R18): 0 before the byte loop, below LEN inside it, LEN after it.
Nothing is said in IDLE, where IDX may be unspecified (R34). -/
def indexInRange (s : State) : Bool :=
  match s.phase with
  | .idle => true
  | .busWait | .start1 | .start1Wait | .addrW | .addrWWait | .regSel | .regSelWait => s.idx == 0#8
  | .ackCfg => s.idx == 0#8 && decide (1 < s.len.toNat)
  | .start2 | .start2Wait | .addrR | .addrRWait => s.idx == 0#8
  | .rxWait | .rxTake | .txWait | .txPut => decide (s.idx.toNat < s.len.toNat)
  | .btfWait => s.idx == s.len
  | .stop => if s.op = .ping then s.idx == 0#8 else s.idx == s.len

/-- TMO is never above the budget of the bounded wait it counts for (R19). -/
def counterInBudget (s : State) : Bool :=
  match s.phase with
  | .busWait => decide (s.tmo.toNat ≤ s.params.tIdle.toNat)
  | .addrWWait | .addrRWait => decide (s.tmo.toNat ≤ s.params.tAddr.toNat)
  | .idle | .start1 | .start1Wait | .addrW | .regSel | .regSelWait | .ackCfg | .start2 | .start2Wait | .addrR => true
  | .rxWait | .rxTake | .txWait | .txPut | .btfWait | .stop => true

/-- DONE is 0 while an operation runs (R22), and what RESULT holds in the STOP phase (R21, R151). -/
def flagsAgree (s : State) : Bool :=
  (s.phase == .idle || !s.done) &&
  (s.phase != .stop || if s.op = .ping then s.result != .timeout else s.result == .ok)

/-- From its first START to its STOP an operation holds the bus (R32). -/
def busHeldWhileOpen (s : State) : Bool :=
  match s.phase with
  | .idle | .busWait | .start1 => true
  | .start1Wait | .addrW | .addrWWait | .regSel | .regSelWait | .ackCfg | .start2 | .start2Wait | .addrR => busHeld s.trace
  | .addrRWait | .rxWait | .rxTake | .txWait | .txPut | .btfWait | .stop => busHeld s.trace

/-- The invariant of the machine. -/
abbrev StateInv (s : State) : Prop :=
  Memory.wf s.buffer ∧ phaseOf s.op s.phase = true ∧ indexInRange s = true ∧ counterInBudget s = true ∧
    flagsAgree s = true ∧ busHeldWhileOpen s = true

/-! ### The transition table -/

/-- The next phases the table allows from a phase (R88), for an operation and, where the table tests them, LEN and IDX. -/
def nextPhases (s : State) : List Phase :=
  match s.phase with
  | .idle => []
  | .busWait => [.busWait, .start1, .idle]
  | .start1 => [.start1Wait]
  | .start1Wait => [.start1Wait, .addrW]
  | .addrW => [.addrWWait]
  | .addrWWait => if s.op = .ping then [.addrWWait, .stop] else [.addrWWait, .regSel, .idle]
  | .regSel => [.regSelWait]
  | .regSelWait =>
    match s.op with
    | .ping => [.regSelWait]
    | .read => [.regSelWait, if 1 < s.len.toNat then .ackCfg else .start2]
    | .write => [.regSelWait, if s.len.toNat = 0 then .btfWait else .txWait]
  | .ackCfg => [.start2]
  | .start2 => [.start2Wait]
  | .start2Wait => [.start2Wait, .addrR]
  | .addrR => [.addrRWait]
  | .addrRWait => [.addrRWait, if s.len.toNat = 0 then .stop else .rxWait, .idle]
  | .rxWait => [.rxWait, .rxTake]
  | .rxTake => [if s.idx + 1#8 = s.len then .stop else .rxWait]
  | .txWait => [.txWait, .txPut]
  | .txPut => [if s.idx + 1#8 = s.len then .btfWait else .txWait]
  | .btfWait => [.btfWait, .stop]
  | .stop => [.idle]

/-! ### The address maps -/

/-- The same state of an instance whose registers sit elsewhere: HOST_MAP and PERIPH_MAP replaced (R9, R48). -/
def State.withMaps (h : HostMap) (p : PeriphMap) (s : State) : State :=
  { s with params := { s.params with hostMap := h, periphMap := p } }

/-! ### Runs -/

/-- `k` steps of the machine, stopping at the first fault or refusal. -/
def run : Nat → State → Host.Outcome State Fault Refusal
  | 0, s => .next s
  | k + 1, s =>
    match step s with
    | .next s1 => run k s1
    | .fault f => .fault f
    | .refused r => .refused r

/-! ### Named premises -/

/-- ENV-EXCLUSIVE on the host's side, and no reset (R181, R187): the step leaves the buffer and the running operation alone. -/
def HostStep.quiet : HostStep → Bool
  | .run => true
  | .offer _ => true
  | .readStatus => true
  | .bufWrite _ _ => false
  | .bufRead _ => true
  | .bufSize _ => false
  | .reset => false

/-- None of these answers satisfies the event. -/
abbrev noneSatisfies (p : Params) (e : Event) (answers : List StatusWord) : Prop := ∀ w ∈ answers, oracleMatch p e w = false

/-- ENV-PROGRESS for one wait (R185): some answer satisfies the event, so that the wait ends. -/
abbrev envProgress (p : Params) (e : Event) (answers : List StatusWord) : Prop := ∃ w ∈ answers, oracleMatch p e w = true

/-- Every answer reports every event an operation waits for after its START (R185, in its strongest form). -/
abbrev reportsAll (p : Params) (answers : List StatusWord) : Prop :=
  ∀ w ∈ answers, oracleMatch p .startSelected w = true ∧ oracleMatch p .addrTxSelected w = true ∧
    oracleMatch p .addrRxSelected w = true ∧ oracleMatch p .byteTransmitted w = true ∧
    oracleMatch p .rxNotEmpty w = true ∧ oracleMatch p .txEmpty w = true

/-- What the environment answers to the samples of one PING for it to end with this result: OK where each of its three waits is satisfied in time (R93), NOACK where the address wait takes T_ADDR unsatisfied samples (R100), TIMEOUT where the idle wait takes T_IDLE (R142). -/
def pingAnswers (p : Params) (r : Result) (answers : List StatusWord) : Prop :=
  match r with
  | .ok => ∃ l1 w1 l2 w2 l3 w3, answers = l1 ++ w1 :: (l2 ++ w2 :: (l3 ++ [w3])) ∧
      noneSatisfies p .busIdle l1 ∧ oracleMatch p .busIdle w1 = true ∧ l1.length < p.tIdle.toNat ∧
      noneSatisfies p .startSelected l2 ∧ oracleMatch p .startSelected w2 = true ∧
      noneSatisfies p .addrTxSelected l3 ∧ oracleMatch p .addrTxSelected w3 = true ∧ l3.length < p.tAddr.toNat
  | .noAck => ∃ w1 w2 l3, answers = w1 :: w2 :: l3 ∧ p.tIdle ≠ 0#32 ∧
      oracleMatch p .busIdle w1 = true ∧ oracleMatch p .startSelected w2 = true ∧
      noneSatisfies p .addrTxSelected l3 ∧ l3.length = p.tAddr.toNat
  | .timeout => noneSatisfies p .busIdle answers ∧ answers.length = p.tIdle.toNat

/-- The trace entries of a list of status answers, newest first. -/
def samplesOf (answers : List StatusWord) : List Action := (answers.map Action.statusRd).reverse

end Sys2Proof.Machine
end

