-- ==== Sys2Proof/Certificates/Slice0/Obligations.lean ====
section
/-! DEFINITION. The statements about the model, each a Prop that says what a rule of the spec says of the machine.

Every statement is about every state, so about every parameter instance (a state carries its own, log entry 2) and every answer of the environment (log entry 3). -/

open Sys2Proof Sys2Proof.Machine

/-! ### Encodings -/

/-- Tier 3. The decoder reads back every well-formed command from its word (R66, R68). -/
def Obligations.DecodeOfEncode : Prop :=
  ∀ i : Instr, i.wellFormed = true → decode (encode i) = .ok i

/-- Tier 2. A word the decoder reads is the word of a well-formed command, but for the ignored bit 23 (R53, R55, R66). -/
def Obligations.EncodeOfDecode : Prop :=
  ∀ (w : CommandWord) (i : Instr), decode w = .ok i → i.wellFormed = true ∧ encode i = w &&& 0xFF7FFFFF#32

/-- Tier 2. The decoding procedure (R68), its fields written as bits of the word. -/
def Obligations.DecodingProcedureIsTotal : Prop :=
  ∀ w : CommandWord,
    if w.extractLsb' 26 6 ≠ 0#6 ∨ w.extractLsb' 24 2 = 0b00#2 then ∃ r, decode w = .error r
    else ∃ i, decode w = .ok i ∧ i.op.code = w.extractLsb' 24 2 ∧ i.addr = (w.extractLsb' 16 7).toNat ∧
      i.reg = (w.extractLsb' 8 8).toNat ∧ i.len = (w.extractLsb' 0 8).toNat

/-- Tier 2. The opcode map (R62): `w & 0xFF000000` alone selects the operation, and every other value selects nothing. -/
def Obligations.TopByteSelectsTheOperation : Prop :=
  ∀ w : CommandWord,
    ((∃ i, decode w = .ok i ∧ i.op = .ping) ↔ w &&& 0xFF000000#32 = 0x01000000#32) ∧
    ((∃ i, decode w = .ok i ∧ i.op = .read) ↔ w &&& 0xFF000000#32 = 0x02000000#32) ∧
    ((∃ i, decode w = .ok i ∧ i.op = .write) ↔ w &&& 0xFF000000#32 = 0x03000000#32) ∧
    ((∃ r, decode w = .error r) ↔
      w &&& 0xFF000000#32 ≠ 0x01000000#32 ∧ w &&& 0xFF000000#32 ≠ 0x02000000#32 ∧ w &&& 0xFF000000#32 ≠ 0x03000000#32)

/-- Tier 1, a sanity statement on words of vector V-E1. -/
def Obligations.VectorWordsDecode : Prop :=
  decode 0x01420000#32 = .ok (.ping 0x42 0 0) ∧
  decode 0x01C2FFFF#32 = .ok (.ping 0x42 0xFF 0xFF) ∧
  decode 0x02501002#32 = .ok (.read 0x50 0x10 2) ∧
  decode 0x03FFFFFF#32 = .ok (.write 0x7F 0xFF 0xFF) ∧
  decode 0x00420000#32 = .error .reservedOp ∧
  decode 0x05420000#32 = .error .reservedBits

/-- Tier 2. Bit 23 of a command word is ignored: any value of it gives the same command (R55, R64). -/
def Obligations.UnusedTopBitIsIgnored : Prop :=
  ∀ w : CommandWord, decode (w ^^^ 0x00800000#32) = decode w

/-- Tier 1. The phase codes are 0 to 18, one each, and the codes 19 to 31 are unused (R60). -/
def Obligations.PhaseCodesAreOneToOne : Prop :=
  (∀ p : Phase, Phase.ofCode p.code = some p ∧ p.code.toNat < 19) ∧
  ∀ c : BitVec 5, 19 ≤ c.toNat → Phase.ofCode c = none

/-- Tier 1. The address byte on the wire (R61), with the rule's examples. -/
def Obligations.WireByteIsAddressThenDirection : Prop :=
  (∀ a : Address, (wire a .write).toNat = 2 * a.toNat ∧ (wire a .read).toNat = 2 * a.toNat + 1 ∧
    (wire a .write).extractLsb' 1 7 = a ∧ (wire a .read).extractLsb' 1 7 = a) ∧
  wire 0x42#7 .write = 0x84#8 ∧ wire 0x42#7 .read = 0x85#8 ∧ wire 0x00#7 .write = 0x00#8 ∧
  wire 0x7F#7 .read = 0xFF#8 ∧ wire 0x7E#7 .write = 0xFC#8

/-- Tier 2. The oracle's verdict (R72): every pattern bit is 1 in the sample, bits outside the pattern are ignored, BUS_IDLE is the complement of BUS_BUSY. -/
def Obligations.OracleMatchesPatternBits : Prop :=
  ∀ (p : Params) (w : StatusWord),
    (∀ (e : Event) (pat : StatusWord), p.pattern e = some pat →
      (oracleMatch p e w = true ↔ ∀ k, pat.getLsbD k = true → w.getLsbD k = true)) ∧
    (oracleMatch p .busIdle w = true ↔ ¬ oracleMatch p .busBusy w = true) ∧
    (∀ e : Event, p.pattern e = none ↔ e = .busIdle)

/-! ### Accept and the machine's step -/

/-- Tier 2. Accept (R75): a legal word offered in IDLE is latched and starts the operation; every other offer changes nothing of the block.
The host's script moves on and its log records the answer (the model's own host interface, log entry 4). -/
def Obligations.OfferIsAcceptedOrChangesNothing : Prop :=
  ∀ (s : State) (w : CommandWord) (rest : List HostStep), s.script = .offer w :: rest →
    if s.phase = .idle ∧ w.extractLsb' 26 6 = 0#6 ∧ w.extractLsb' 24 2 ≠ 0b00#2 then
      ∃ o : Op, o.code = w.extractLsb' 24 2 ∧
        step s = .next { s with
          op := o
          addr := w.extractLsb' 16 7
          reg := w.extractLsb' 8 8
          len := w.extractLsb' 0 8
          idx := 0#8
          tmo := s.params.tIdle
          done := false
          phase := .busWait
          script := rest
          hostLog := .offered w true :: s.hostLog }
    else step s = .next { s with script := rest, hostLog := .offered w false :: s.hostLog }

/-- Tier 1. A step whose host offers a decodable word to an idle block is `exec` of the decoded command, after the host's script has moved on and its log says the word was accepted (R70, R75).
The script and the log are the model's choice (log entry 4). -/
def Obligations.StepRunsTheOfferedCommand : Prop :=
  ∀ (s : State) (w : CommandWord) (rest : List HostStep) (i : Instr),
    s.script = .offer w :: rest → s.phase = .idle → decode w = .ok i →
    step s = exec i { s with script := rest, hostLog := .offered w true :: s.hostLog }

/-- Tier 1. While an operation runs, a step of a silent host, or one that lets the sequencer run, is `exec` of the latched command (R70).
In IDLE the sequencer has no step (R70); that the machine's step then answers the same state, but for the script, is the model's choice, as is the script itself (log entry 4). -/
def Obligations.StepRunsTheLatchedCommand : Prop :=
  ∀ s : State,
    (s.script = [] → s.phase ≠ .idle → step s = exec s.running s) ∧
    (∀ rest, s.script = .run :: rest → s.phase ≠ .idle → step s = exec s.running { s with script := rest }) ∧
    (s.script = [] → s.phase = .idle → step s = .next s) ∧
    (∀ rest, s.script = .run :: rest → s.phase = .idle → step s = .next { s with script := rest }) ∧
    s.running.op = s.op ∧ s.running.addr = s.addr.toNat ∧ s.running.reg = s.reg.toNat ∧ s.running.len = s.len.toNat ∧
    s.running.wellFormed = true

/-- Tier 2. PING, READ and WRITE in IDLE complete by Accept (R75), for every operand; an operand in range is latched as it is. -/
def Obligations.EveryCommandStartsByAccept : Prop :=
  ∀ (i : Instr) (s : State), s.phase = .idle →
    exec i s = .next { s with
      op := i.op
      addr := BitVec.ofNat 7 i.addr
      reg := BitVec.ofNat 8 i.reg
      len := BitVec.ofNat 8 i.len
      idx := 0#8
      tmo := s.params.tIdle
      done := false
      phase := .busWait } ∧
    (i.wellFormed = true →
      (BitVec.ofNat 7 i.addr).toNat = i.addr ∧ (BitVec.ofNat 8 i.reg).toNat = i.reg ∧ (BitVec.ofNat 8 i.len).toNat = i.len)

/-! ### The phases every operation shares -/

/-- Tier 2. START1 (R81), ADDRW (R83) and REGSEL (R85): one action each, for PING, READ and WRITE (REGSEL for READ and WRITE). -/
def Obligations.SharedActionPhases : Prop :=
  ∀ (i : Instr) (s : State),
    (s.phase = .start1 → exec i s = .next { s with trace := .start :: s.trace, phase := .start1Wait }) ∧
    (s.phase = .addrW → ∃ b : Byte, b.toNat = 2 * s.addr.toNat ∧
      exec i s = .next { s with trace := .dataWr b :: s.trace, tmo := s.params.tAddr, phase := .addrWWait }) ∧
    (s.phase = .regSel → i.op ≠ .ping →
      exec i s = .next { s with trace := .dataWr s.reg :: s.trace, phase := .regSelWait })

/-- Tier 1. The STOP phase completes every command (R79, R80): the STOP action, DONE <- 1, PHASE <- IDLE, RESULT and every latch kept. -/
def Obligations.StopPhaseFinishes : Prop :=
  ∀ (i : Instr) (s : State), s.phase = .stop →
    exec i s = .next { s with trace := .stop :: s.trace, done := true, phase := .idle }

/-- Tier 2. The BUSWAIT step of PING, READ and WRITE (R76, R78), its four cases. -/
def Obligations.BusWaitStep : Prop :=
  ∀ (i : Instr) (s : State), s.phase = .busWait →
    exec i s =
      if s.tmo = 0#32 then .next { s with result := .timeout, done := true, phase := .idle }
      else if oracleMatch s.params .busIdle s.statusWord = true then .next { s.sampled with phase := .start1 }
      else if s.tmo = 1#32 then .next { s.sampled with tmo := 0#32, result := .timeout, done := true, phase := .idle }
      else .next { s.sampled with tmo := s.tmo - 1#32 }

/-- Tier 2. The ADDRW_WAIT step (R84): PING goes to STOP with OK or NOACK; READ and WRITE go to REGSEL, or finish with NOACK and no STOP. -/
def Obligations.AddressWriteWaitStep : Prop :=
  ∀ (i : Instr) (s : State), s.phase = .addrWWait →
    (s.tmo ≠ 0#32 → oracleMatch s.params .addrTxSelected s.statusWord = true →
      exec i s = if i.op = .ping then .next { s.sampled with result := .ok, phase := .stop }
        else .next { s.sampled with phase := .regSel }) ∧
    (s.tmo ≠ 0#32 → s.tmo ≠ 1#32 → oracleMatch s.params .addrTxSelected s.statusWord = false →
      exec i s = .next { s.sampled with tmo := s.tmo - 1#32 }) ∧
    (s.tmo = 1#32 → oracleMatch s.params .addrTxSelected s.statusWord = false →
      exec i s = if i.op = .ping then .next { s.sampled with tmo := 0#32, result := .noAck, phase := .stop }
        else .next { s.sampled with tmo := 0#32, result := .noAck, done := true, phase := .idle }) ∧
    (s.tmo = 0#32 →
      exec i s = if i.op = .ping then .next { s with result := .noAck, phase := .stop }
        else .next { s with result := .noAck, done := true, phase := .idle })

/-- Tier 2. The REGSEL_WAIT step of READ and WRITE (R86): the first loop test of each. -/
def Obligations.RegisterSelectWaitStep : Prop :=
  ∀ (i : Instr) (s : State), s.phase = .regSelWait →
    (oracleMatch s.params .txEmpty s.statusWord = false → exec i s = .next s.sampled) ∧
    (oracleMatch s.params .txEmpty s.statusWord = true → i.op = .read →
      exec i s = .next { s.sampled with phase := if s.len.toNat > 1 then .ackCfg else .start2 }) ∧
    (oracleMatch s.params .txEmpty s.statusWord = true → i.op = .write →
      exec i s = .next { s.sampled with phase := if s.len.toNat = 0 then .btfWait else .txWait })

/-- Tier 2. START1_WAIT, START2_WAIT, RX_WAIT and TX_WAIT (R77, R82, R109, R111, R127), and BTF_WAIT, which also writes RESULT <- OK (R129): one sample, and on exactly when the event is satisfied. -/
def Obligations.UnboundedWaitSteps : Prop :=
  ∀ (i : Instr) (s : State),
    (s.phase = .start1Wait → exec i s = .next
      (if oracleMatch s.params .startSelected s.statusWord = true then { s.sampled with phase := .addrW } else s.sampled)) ∧
    (s.phase = .start2Wait → exec i s = .next
      (if oracleMatch s.params .startSelected s.statusWord = true then { s.sampled with phase := .addrR } else s.sampled)) ∧
    (s.phase = .rxWait → exec i s = .next
      (if oracleMatch s.params .rxNotEmpty s.statusWord = true then { s.sampled with phase := .rxTake } else s.sampled)) ∧
    (s.phase = .txWait → exec i s = .next
      (if oracleMatch s.params .txEmpty s.statusWord = true then { s.sampled with phase := .txPut } else s.sampled)) ∧
    (s.phase = .btfWait → exec i s = .next
      (if oracleMatch s.params .byteTransmitted s.statusWord = true then { s.sampled with result := .ok, phase := .stop }
        else s.sampled))

/-! ### The phases only READ or only WRITE uses -/

/-- Tier 2. READ's action phases: ACKCFG (R108), START2 (R109), ADDRR (R110). -/
def Obligations.ReadActionPhases : Prop :=
  ∀ (a r n : Nat) (s : State),
    (s.phase = .ackCfg → exec (.read a r n) s = .next { s with trace := .ackEn :: s.trace, phase := .start2 }) ∧
    (s.phase = .start2 → exec (.read a r n) s = .next { s with trace := .start :: s.trace, phase := .start2Wait }) ∧
    (s.phase = .addrR → ∃ b : Byte, b.toNat = 2 * s.addr.toNat + 1 ∧
      exec (.read a r n) s = .next { s with trace := .dataWr b :: s.trace, tmo := s.params.tAddr, phase := .addrRWait })

/-- Tier 2. READ's ADDRR_WAIT step (R110): on to RX_WAIT, or with LEN = 0 to STOP with OK; on expiry NOACK with no STOP. -/
def Obligations.AddressReadWaitStep : Prop :=
  ∀ (a r n : Nat) (s : State), s.phase = .addrRWait →
    (s.tmo ≠ 0#32 → oracleMatch s.params .addrRxSelected s.statusWord = true →
      exec (.read a r n) s = if s.len = 0#8 then .next { s.sampled with result := .ok, phase := .stop }
        else .next { s.sampled with phase := .rxWait }) ∧
    (s.tmo ≠ 0#32 → s.tmo ≠ 1#32 → oracleMatch s.params .addrRxSelected s.statusWord = false →
      exec (.read a r n) s = .next { s.sampled with tmo := s.tmo - 1#32 }) ∧
    (s.tmo = 1#32 → oracleMatch s.params .addrRxSelected s.statusWord = false →
      exec (.read a r n) s = .next { s.sampled with tmo := 0#32, result := .noAck, done := true, phase := .idle }) ∧
    (s.tmo = 0#32 → exec (.read a r n) s = .next { s with result := .noAck, done := true, phase := .idle })

/-- Tier 2. RX_TAKE (R112): one DATA_RD, its byte stored at IDX and at no other index, IDX + 1, and after the last byte STOP with OK.
Where the buffer has no byte at IDX the form stops by name, and both stops are the model's choice: at index 255, which R36 and R37 leave out of 0 to 254, the fault of log entry 14; beyond the bytes the host provided the refusal of log entry 6 (U15). -/
def Obligations.ReceiveTakesOneByte : Prop :=
  ∀ (a r n : Nat) (s : State), s.phase = .rxTake →
    (s.idx.toNat < 255 → s.idx.toNat < s.bufferSize → ∃ m : Memory,
      exec (.read a r n) s = .next { s with
        trace := .dataRd s.dataByte :: s.trace
        dataAnswers := s.dataAnswers.tail
        fresh := s.fresh + 1
        buffer := m
        idx := s.idx + 1#8
        result := if s.idx + 1#8 = s.len then .ok else s.result
        phase := if s.idx + 1#8 = s.len then .stop else .rxWait } ∧
      (Memory.wf s.buffer → Memory.get m s.idx.toNat = s.dataByte ∧ Memory.wf m) ∧
      ∀ j, j ≠ s.idx.toNat → Memory.get m j = Memory.get s.buffer j) ∧
    (s.idx.toNat = 255 → exec (.read a r n) s = .fault .bufferIndexOutside) ∧
    (s.idx.toNat < 255 → s.bufferSize ≤ s.idx.toNat → exec (.read a r n) s = .refused .bufferTooShort)

/-- Tier 2. TX_PUT (R128): the byte at IDX goes to the data register, IDX + 1, and after the last byte BTF_WAIT.
Where the buffer has no byte at IDX the form stops by name, and both stops are the model's choice: at index 255, which R36 and R37 leave out of 0 to 254, the fault of log entry 14; beyond the bytes the host provided the refusal of log entry 6 (U15). -/
def Obligations.TransmitPutsOneByte : Prop :=
  ∀ (a r n : Nat) (s : State), s.phase = .txPut →
    (s.idx.toNat < 255 → s.idx.toNat < s.bufferSize →
      exec (.write a r n) s = .next { s with
        trace := .dataWr (Memory.get s.buffer s.idx.toNat) :: s.trace
        idx := s.idx + 1#8
        phase := if s.idx + 1#8 = s.len then .btfWait else .txWait }) ∧
    (s.idx.toNat = 255 → exec (.write a r n) s = .fault .bufferIndexOutside) ∧
    (s.idx.toNat < 255 → s.bufferSize ≤ s.idx.toNat → exec (.write a r n) s = .refused .bufferTooShort)

/-- Tier 1. PING has no transition out of a satisfied REGSEL_WAIT: the table has no row for it (R88), and the meaning stops by name, which is the model's choice (log entry 10). -/
def Obligations.PingHasNoRegisterSelect : Prop :=
  ∀ (a r n : Nat) (s : State), s.phase = .regSelWait → oracleMatch s.params .txEmpty s.statusWord = true →
    exec (.ping a r n) s = .fault .noTransition

/-! ### Frames -/

/-- Tier 2. The frame of PING, READ and WRITE over the registers: each register changes only in the phases whose rule writes it (R13, R14 to R22), and the parameters and the host's side never. -/
def Obligations.ExecFrameOfRegisters : Prop :=
  ∀ (i : Instr) (s t : State), exec i s = .next t →
    t.params = s.params ∧ t.bufferSize = s.bufferSize ∧ t.script = s.script ∧ t.hostLog = s.hostLog ∧
    (s.phase ≠ .idle → t.op = s.op ∧ t.addr = s.addr ∧ t.reg = s.reg ∧ t.len = s.len) ∧
    (s.phase ≠ .idle → s.phase ≠ .rxTake → s.phase ≠ .txPut → t.idx = s.idx) ∧
    (s.phase ≠ .idle → s.phase ≠ .addrW → s.phase ≠ .addrR → boundedWait s.phase = false → t.tmo = s.tmo) ∧
    (boundedWait s.phase = false → s.phase ≠ .rxTake → s.phase ≠ .btfWait → t.result = s.result) ∧
    (s.phase ≠ .idle → boundedWait s.phase = false → s.phase ≠ .stop → t.done = s.done)

/-- Tier 2. The frame of PING, READ and WRITE over memory: only RX_TAKE stores, and only at IDX; every other byte reads as before, and in every other phase every byte does (R37, R38). -/
def Obligations.ExecFrameOfMemory : Prop :=
  ∀ (i : Instr) (s t : State), exec i s = .next t →
    ∀ j : Nat, ¬ (s.phase = .rxTake ∧ j = s.idx.toNat) → Memory.get t.buffer j = Memory.get s.buffer j

/-- Tier 2. Which phase performs which action, and with which byte (R41 to R44, R91). -/
def Obligations.ActionsBelongToPhases : Prop :=
  ∀ (s t : State) (a : Action), StateInv s → s.script = [] → step s = .next t → t.trace = a :: s.trace →
    match a with
    | .statusRd w => w = s.statusWord ∧ awaited s.phase ≠ none
    | .start => s.phase = .start1 ∨ (s.phase = .start2 ∧ s.op = .read)
    | .stop => s.phase = .stop
    | .dataWr b =>
      (s.phase = .addrW ∧ b = wire s.addr .write) ∨ (s.phase = .regSel ∧ s.op ≠ .ping ∧ b = s.reg) ∨
      (s.phase = .addrR ∧ s.op = .read ∧ b = wire s.addr .read) ∨
      (s.phase = .txPut ∧ s.op = .write ∧ b = Memory.get s.buffer s.idx.toNat)
    | .dataRd b => s.phase = .rxTake ∧ s.op = .read ∧ b = s.dataByte
    | .ackEn => s.phase = .ackCfg ∧ s.op = .read ∧ 1 < s.len.toNat

/-- Tier 2. What the actions of a step do to the peripheral's controls and data register (R28, R29, R31, R32): START takes the bus and only STOP releases it, ACKCFG turns continuous acknowledgment on and nothing turns it off, and the data register holds the last byte written.
The model holds these as views of the trace (log entry 9). -/
def Obligations.PeripheralControlsFollowTheActions : Prop :=
  ∀ s t : State, s.script = [] → s.phase ≠ .idle → step s = .next t →
    busHeld t.trace = (if s.phase = .start1 ∨ s.phase = .start2 then true else if s.phase = .stop then false else busHeld s.trace) ∧
    ackTurnedOn t.trace = (if s.phase = .ackCfg then true else ackTurnedOn s.trace) ∧
    lastDataWritten t.trace =
      match s.phase with
      | .addrW => some (wire s.addr .write)
      | .regSel => some s.reg
      | .addrR => some (wire s.addr .read)
      | .txPut => some (Memory.get s.buffer s.idx.toNat)
      | _ => lastDataWritten s.trace

/-- Tier 2. One action per sequencer step, but for a bounded poll entered with TMO = 0, which performs none; Accept and the host's other steps perform none (R91). -/
def Obligations.OneActionPerStep : Prop :=
  ∀ s t : State, step s = .next t →
    (s.script = [] → s.phase ≠ .idle →
      if boundedWait s.phase = true ∧ s.tmo = 0#32 then t.trace = s.trace else ∃ a, t.trace = a :: s.trace) ∧
    (∀ h rest, s.script = h :: rest → h ≠ .run → t.trace = s.trace)

/-- Tier 2. Every transition is in the table (R88): a sequencer step's next phase is one the table allows. -/
def Obligations.TransitionsAreInTheTable : Prop :=
  ∀ s t : State, s.script = [] → s.phase ≠ .idle → step s = .next t → t.phase ∈ nextPhases s

/-- Tier 2. RESULT is written only by the steps that decide an outcome (R21, R141), each with its own value. -/
def Obligations.ResultIsWrittenByDecidingSteps : Prop :=
  ∀ s t : State, s.script = [] → step s = .next t → t.result ≠ s.result →
    (s.phase = .busWait ∧ t.result = .timeout ∧ t.phase = .idle) ∨
    (s.phase = .addrWWait ∧ (t.result = .noAck ∨ t.result = .ok ∧ s.op = .ping)) ∨
    (s.phase = .addrRWait ∧ (t.result = .noAck ∧ t.phase = .idle ∨ t.result = .ok ∧ s.len = 0#8)) ∨
    (s.phase = .rxTake ∧ t.result = .ok ∧ s.idx + 1#8 = s.len) ∨
    (s.phase = .btfWait ∧ t.result = .ok)

/-- Tier 2. The parameters are constants of the instance: no step of any agent writes them, and no port reads them (R26). -/
def Obligations.ParametersNeverChange : Prop :=
  (∀ s t : State, step s = .next t → t.params = s.params) ∧
  ∀ (s : State) (p : Params), ({ s with params := p } : State).statusPort = s.statusPort

/-! ### The host's side -/

/-- Tier 1. The status port (R25): BUSY in bit 0, DONE in bit 1, RESULT in bits 3:2, and reading it changes nothing of the block.
That the read moves the host's script on and leaves the value in its log is the model's choice (log entry 4). -/
def Obligations.StatusPortShowsTheFlags : Prop :=
  ∀ s : State,
    (s.statusPort.extractLsb' 0 1 = 1#1 ↔ s.phase ≠ .idle) ∧
    (s.statusPort.extractLsb' 1 1 = 1#1 ↔ s.done = true) ∧
    s.statusPort.extractLsb' 2 2 = s.result.code ∧
    (∀ rest, s.script = .readStatus :: rest →
      step s = .next { s with script := rest, hostLog := .status s.statusPort :: s.hostLog })

/-- Tier 2. While an operation runs, no host step but reset disturbs it: the nine registers, the parameters, the trace and the environment stay (R52, R75); a host that keeps ENV-EXCLUSIVE leaves the buffer too (R181, R187).
The host's steps are the model's own host interface (log entry 4). -/
def Obligations.HostCannotDisturbAnOperation : Prop :=
  ∀ (s t : State) (h : HostStep) (rest : List HostStep),
    s.script = h :: rest → h ≠ .run → h ≠ .reset → s.phase ≠ .idle → step s = .next t →
    t.op = s.op ∧ t.addr = s.addr ∧ t.reg = s.reg ∧ t.len = s.len ∧ t.idx = s.idx ∧ t.tmo = s.tmo ∧
    t.phase = s.phase ∧ t.result = s.result ∧ t.done = s.done ∧ t.params = s.params ∧ t.trace = s.trace ∧
    t.statusAnswers = s.statusAnswers ∧ t.dataAnswers = s.dataAnswers ∧
    (h.quiet = true → t.buffer = s.buffer ∧ t.bufferSize = s.bufferSize)

/-- Tier 2. A host write to its buffer is what the buffer then holds there, and nothing else of the buffer or of the block changes (R36, R52).
The host's script is the model's choice (log entry 4). -/
def Obligations.HostBufferWriteIsSeen : Prop :=
  ∀ (s : State) (i v : Byte) (rest : List HostStep), s.script = .bufWrite i v :: rest → i.toNat < 255 →
    ∃ m : Memory, step s = .next { s with script := rest, buffer := m } ∧
      (Memory.wf s.buffer → Memory.get m i.toNat = v) ∧
      ∀ j, j ≠ i.toNat → Memory.get m j = Memory.get s.buffer j

/-- Tier 2. The reset input (R166, R167): PHASE = IDLE, DONE = 0, no action; the buffer, the trace and the parameters stay.
The host's script is the model's choice (log entry 4). -/
def Obligations.ResetInputAbandonsTheOperation : Prop :=
  ∀ (s : State) (rest : List HostStep), s.script = .reset :: rest →
    ∃ t, step s = .next t ∧ t.phase = .idle ∧ t.done = false ∧ t.cmdReady = true ∧ t.busy = false ∧
      t.trace = s.trace ∧ t.buffer = s.buffer ∧ t.params = s.params ∧ t.script = rest ∧ t.returned = none

/-- Tier 1. The machine right after reset (R34, R166): what the spec states, and nothing else. -/
def Obligations.ResetStateIsIdle : Prop :=
  State.reset.phase = .idle ∧ State.reset.done = false ∧ State.reset.busy = false ∧ State.reset.cmdReady = true

/-- Tier 2. The scan (R104): 127 PING commands, 0x00 to 0x7E ascending. -/
def Obligations.ScanIssuesEveryCandidateOnce : Prop :=
  scanWords.length = 127 ∧ ∀ c : Nat, c < 127 → ∃ w, scanWords[c]? = some w ∧ decode w = .ok (.ping c 0 0)

/-! ### The invariant -/

/-- Tier 1. The invariant holds after reset: it asks nothing of the registers the spec leaves unspecified, and the empty buffer is the model's choice (log entry 6). -/
def Obligations.ResetSatisfiesInvariant : Prop := StateInv State.reset

/-- Tier 3. Every step of every agent keeps the invariant: the buffer's canonical form, the phases an operation can be in (R88), IDX within LEN (R18), TMO within its budget (R19), DONE = 0 while busy (R22), RESULT in the STOP phase (R21), and the bus held from START to STOP (R32).
The canonical form is the model's own (log entry 6), and who holds the bus is read off the trace (log entry 9). -/
def Obligations.StepKeepsInvariant : Prop :=
  ∀ s t : State, StateInv s → step s = .next t → StateInv t

/-- Tier 2. From every state of the invariant, with a buffer of at least LEN bytes, the sequencer's step is a next state: no run of it stops (R38, R70). -/
def Obligations.SequencerNeverStops : Prop :=
  ∀ s : State, StateInv s → s.script = [] → s.len.toNat ≤ s.bufferSize → ∃ t, step s = .next t

/-- Tier 2. An operation that ends with a result other than OK has moved no buffer byte, and if it is a READ or WRITE it does not end in the STOP phase (R115, R131, R151). -/
def Obligations.FailedOperationMovesNoByte : Prop :=
  ∀ s t : State, StateInv s → s.script = [] → s.phase ≠ .idle → step s = .next t → t.phase = .idle → t.result ≠ .ok →
    t.idx = 0#8 ∧ t.done = true ∧ (s.op ≠ .ping → s.phase ≠ .stop)

/-! ### Runs: the two kinds of wait -/

/-- Tier 2. A bounded wait entered with budget N ≥ 1 expires in the step of its N-th unsatisfied sample, not sooner or later, and then takes its abort path (R76, R100, R150). -/
def Obligations.BoundedWaitExpiresAtItsBudget : Prop :=
  ∀ (s : State) (e : Event) (answers rest : List StatusWord),
    s.script = [] → boundedWait s.phase = true → awaited s.phase = some e → s.tmo ≠ 0#32 →
    s.statusAnswers = answers ++ rest → noneSatisfies s.params e answers →
    (answers.length < s.tmo.toNat →
      run answers.length s = .next { s with
        tmo := s.tmo - BitVec.ofNat 32 answers.length
        statusAnswers := rest
        fresh := s.fresh + answers.length
        trace := samplesOf answers ++ s.trace }) ∧
    (answers.length = s.tmo.toNat →
      run answers.length s = .next { s with
        tmo := 0#32
        statusAnswers := rest
        fresh := s.fresh + answers.length
        trace := samplesOf answers ++ s.trace
        result := if s.phase = .busWait then .timeout else .noAck
        done := if s.phase = .addrWWait ∧ s.op = .ping then s.done else true
        phase := if s.phase = .addrWWait ∧ s.op = .ping then .stop else .idle })

/-- Tier 2. A bounded wait whose event is first satisfied at the k-th sample, k ≤ N, ends as satisfied at that sample, k = N included (R76). -/
def Obligations.BoundedWaitEndsAtSatisfyingSample : Prop :=
  ∀ (s : State) (e : Event) (answers rest : List StatusWord) (w : StatusWord),
    s.script = [] → boundedWait s.phase = true → awaited s.phase = some e →
    s.statusAnswers = answers ++ w :: rest → noneSatisfies s.params e answers → oracleMatch s.params e w = true →
    answers.length < s.tmo.toNat →
    ∃ t, run (answers.length + 1) s = .next t ∧
      t.phase = (if s.phase = .busWait then .start1 else if s.phase = .addrWWait then (if s.op = .ping then .stop else .regSel)
        else if s.len = 0#8 then .stop else .rxWait) ∧
      t.tmo = s.tmo - BitVec.ofNat 32 answers.length ∧ t.statusAnswers = rest ∧
      t.trace = samplesOf (answers ++ [w]) ++ s.trace ∧ t.buffer = s.buffer ∧ t.done = s.done

/-- Tier 2. An unbounded wait never expires: however many unsatisfied samples it takes, PHASE, TMO, RESULT and DONE stay, and nothing but STATUS_RD is performed (R77, R161). -/
def Obligations.UnboundedWaitHangsWithoutItsEvent : Prop :=
  ∀ (s : State) (e : Event) (answers rest : List StatusWord),
    s.script = [] → unboundedWait s.phase = true → awaited s.phase = some e →
    s.statusAnswers = answers ++ rest → noneSatisfies s.params e answers →
    run answers.length s = .next { s with
      statusAnswers := rest
      fresh := s.fresh + answers.length
      trace := samplesOf answers ++ s.trace }

/-- Tier 2. Under ENV-PROGRESS an unbounded wait ends (R77, R185): if some answer satisfies the awaited event, the wait takes no more samples than there are answers and moves on as the transition table says, with no action but STATUS_RD.
PING in REGSEL_WAIT, which no run reaches, is left out: there the model stops (log entry 10). -/
def Obligations.UnboundedWaitEndsUnderProgress : Prop :=
  ∀ (s : State) (e : Event) (answers rest : List StatusWord),
    s.script = [] → unboundedWait s.phase = true → awaited s.phase = some e → (s.phase = .regSelWait → s.op ≠ .ping) →
    s.statusAnswers = answers ++ rest → envProgress s.params e answers →
    ∃ used left t, answers = used ++ left ∧ run used.length s = .next t ∧ t.phase ≠ s.phase ∧ t.phase ∈ nextPhases s ∧
      t.statusAnswers = left ++ rest ∧ t.trace = samplesOf used ++ s.trace ∧ t.tmo = s.tmo ∧ t.done = s.done ∧
      t.buffer = s.buffer

/-! ### Runs: whole operations -/

/-- Tier 2. PING of a present device (R93, R184): with the idle wait satisfied at sample i ≤ T_IDLE, START_SELECTED at sample j and ADDR_TX_SELECTED at sample k ≤ T_ADDR, it performs i + j + k STATUS_RD, one START, one DATA_WR of the even address byte and one STOP, in this order, and reports OK. -/
def Obligations.PingOfPresentDeviceReportsOk : Prop :=
  ∀ (s : State) (a r n : Nat) (l1 l2 l3 rest : List StatusWord) (w1 w2 w3 : StatusWord),
    (Instr.ping a r n).wellFormed = true → s.phase = .idle → s.script = [.offer (encode (.ping a r n))] →
    s.statusAnswers = l1 ++ w1 :: (l2 ++ w2 :: (l3 ++ w3 :: rest)) →
    noneSatisfies s.params .busIdle l1 → oracleMatch s.params .busIdle w1 = true → l1.length < s.params.tIdle.toNat →
    noneSatisfies s.params .startSelected l2 → oracleMatch s.params .startSelected w2 = true →
    noneSatisfies s.params .addrTxSelected l3 → oracleMatch s.params .addrTxSelected w3 = true →
    l3.length < s.params.tAddr.toNat →
    ∃ t, run (l1.length + l2.length + l3.length + 7) s = .next t ∧
      t.phase = .idle ∧ t.returned = some .ok ∧ t.buffer = s.buffer ∧ t.statusAnswers = rest ∧
      t.trace = .stop :: (samplesOf (l3 ++ [w3]) ++ .dataWr (BitVec.ofNat 8 (2 * a)) ::
        (samplesOf (l2 ++ [w2]) ++ .start :: (samplesOf (l1 ++ [w1]) ++ s.trace)))

/-- Tier 2. A command to an absent device (R84, R100, R114, R131, R151), T_ADDR = N including N = 0: exactly N samples of the address wait, then NOACK; PING issues STOP, READ and WRITE do not and leave the bus held.
Who holds the bus is read off the trace of actions, which is the model's choice of what to keep of the peripheral (log entry 9). -/
def Obligations.AbsentDeviceReportsNoAck : Prop :=
  ∀ (s : State) (i : Instr) (l3 rest : List StatusWord) (w1 w2 : StatusWord),
    i.wellFormed = true → s.phase = .idle → s.script = [.offer (encode i)] →
    s.statusAnswers = w1 :: w2 :: (l3 ++ rest) → s.params.tIdle ≠ 0#32 →
    oracleMatch s.params .busIdle w1 = true → oracleMatch s.params .startSelected w2 = true →
    noneSatisfies s.params .addrTxSelected l3 → l3.length = s.params.tAddr.toNat →
    ∃ t, run ((if i.op = .ping then 6 else 5) + max 1 l3.length) s = .next t ∧
      t.phase = .idle ∧ t.returned = some .noAck ∧ t.buffer = s.buffer ∧ t.statusAnswers = rest ∧
      t.trace = (if i.op = .ping then [.stop] else []) ++ (samplesOf l3 ++ .dataWr (BitVec.ofNat 8 (2 * i.addr)) ::
        .statusRd w2 :: .start :: .statusRd w1 :: s.trace) ∧
      (busHeld t.trace = true ↔ i.op ≠ .ping)

/-- Tier 2. A bus that never becomes idle (R78, R142): every command reports TIMEOUT after its T_IDLE samples, T_IDLE = 0 included, with no START, no STOP and no other action. -/
def Obligations.BusyBusReportsTimeout : Prop :=
  ∀ (s : State) (i : Instr) (answers rest : List StatusWord),
    i.wellFormed = true → s.phase = .idle → s.script = [.offer (encode i)] →
    s.statusAnswers = answers ++ rest → noneSatisfies s.params .busIdle answers →
    answers.length = s.params.tIdle.toNat →
    ∃ t, run (1 + max 1 answers.length) s = .next t ∧
      t.phase = .idle ∧ t.returned = some .timeout ∧ t.buffer = s.buffer ∧ t.statusAnswers = rest ∧
      t.trace = samplesOf answers ++ s.trace

/-- Tier 2. WRITE in an environment that reports each awaited event at once (R125, R131): the address byte, the register index and the buffer bytes 0 to n-1 are sent in this order, OK is reported, and the bus is released.
The bytes sent and who holds the bus are read off the trace of actions, the model's choice of what to keep of the peripheral (log entry 9). -/
def Obligations.WriteSendsItsBuffer : Prop :=
  ∀ (s : State) (a r n : Nat) (w1 : StatusWord) (answers rest : List StatusWord),
    (Instr.write a r n).wellFormed = true → s.phase = .idle → s.script = [.offer (encode (.write a r n))] →
    s.params.tIdle ≠ 0#32 → s.params.tAddr ≠ 0#32 → n ≤ s.bufferSize →
    s.statusAnswers = w1 :: (answers ++ rest) → oracleMatch s.params .busIdle w1 = true →
    reportsAll s.params answers → answers.length = n + 4 →
    ∃ t, run (2 * n + 10) s = .next t ∧
      t.phase = .idle ∧ t.returned = some .ok ∧ t.buffer = s.buffer ∧ t.statusAnswers = rest ∧ t.idx.toNat = n ∧
      busHeld t.trace = false ∧
      bytesSent t.trace = ((List.range n).map fun k => Memory.get s.buffer k).reverse ++
        BitVec.ofNat 8 r :: BitVec.ofNat 8 (2 * a) :: bytesSent s.trace

/-- Tier 2. READ in an environment that reports each awaited event at once (R105, R115): the bytes the environment answers are in the buffer at indices 0 to n-1 in their order, every other byte is as before, ACK_EN is issued exactly when n > 1, once; the address byte with the write direction, the register index and the address byte with the read direction are sent in this order and nothing else; OK is reported, and the bus is released.
The bytes sent and who holds the bus are read off the trace of actions, the model's choice of what to keep of the peripheral (log entry 9). -/
def Obligations.ReadFillsItsBuffer : Prop :=
  ∀ (s : State) (a r n : Nat) (w1 : StatusWord) (answers rest : List StatusWord) (bytes more : List Byte),
    (Instr.read a r n).wellFormed = true → s.phase = .idle → s.script = [.offer (encode (.read a r n))] →
    s.params.tIdle ≠ 0#32 → s.params.tAddr ≠ 0#32 → n ≤ s.bufferSize → Memory.wf s.buffer →
    s.statusAnswers = w1 :: (answers ++ rest) → oracleMatch s.params .busIdle w1 = true →
    reportsAll s.params answers → answers.length = n + 5 →
    s.dataAnswers = bytes ++ more → bytes.length = n →
    ∃ t, run (2 * n + 13 + if 1 < n then 1 else 0) s = .next t ∧
      t.phase = .idle ∧ t.returned = some .ok ∧ t.statusAnswers = rest ∧ t.dataAnswers = more ∧ t.idx.toNat = n ∧
      busHeld t.trace = false ∧
      (∀ (k : Nat) (b : Byte), bytes[k]? = some b → Memory.get t.buffer k = b) ∧
      (∀ k : Nat, n ≤ k → Memory.get t.buffer k = Memory.get s.buffer k) ∧
      t.trace.count .ackEn = s.trace.count .ackEn + (if 1 < n then 1 else 0) ∧
      bytesSent t.trace = BitVec.ofNat 8 (2 * a + 1) :: BitVec.ofNat 8 r :: BitVec.ofNat 8 (2 * a) :: bytesSent s.trace

/-! ### The address maps -/

/-- Tier 2. No rule reads HOST_MAP or PERIPH_MAP (R9, R48): the machine steps, faults and refuses alike wherever the ports and the peripheral's registers sit, and its ports show the same.
The form of the two maps is the model's choice (log entry 15). -/
def Obligations.AddressMapsAffectNoStep : Prop :=
  ∀ (s : State) (h : HostMap) (p : PeriphMap),
    (∀ t, step s = .next t → step (s.withMaps h p) = .next (t.withMaps h p)) ∧
    (∀ f, step s = .fault f → step (s.withMaps h p) = .fault f) ∧
    (∀ r, step s = .refused r → step (s.withMaps h p) = .refused r) ∧
    (s.withMaps h p).statusPort = s.statusPort ∧ (s.withMaps h p).cmdReady = s.cmdReady

/-! ### The host's programs -/

/-- Tier 2. A blocking call (R66, R25) on an idle block, for PING, READ and WRITE: where the operation returns within the host's patience the call returns its RESULT in that state, where it does not the call still waits, and what a call returns is RESULT with BUSY = 0 and DONE = 1, its one offer having been accepted.
The form of a host program, its patience and its silence while it waits are the model's choice (log entry 22), as are the script and the log (log entry 4). -/
def Obligations.BlockingCallReturnsTheResult : Prop :=
  ∀ (s : State) (i : Instr) (patience : Nat),
    i.wellFormed = true → s.phase = .idle → s.script = [] →
    (∀ k t r, k ≤ patience → run (k + 1) { s with script := [.offer (encode i)] } = .next t → t.returned = some r →
      call patience i s = .finished r t) ∧
    (∀ t, run (patience + 1) { s with script := [.offer (encode i)] } = .next t → t.returned = none →
      call patience i s = .waiting t) ∧
    (∀ t r, call patience i s = .finished r t → t.phase = .idle ∧ t.done = true ∧ t.result = r ∧ t.script = [] ∧
      t.hostLog = .offered (encode i) true :: s.hostLog)

/-- Tier 2. The scan (R104, R67): it issues `PING c` for c = 0x00 to 0x7E in this order, each word accepted once, and reports exactly the candidates whose PING ends OK, those with NOACK or TIMEOUT left out.
The result of each candidate is any; the premise is what the environment answers for the candidate's PING to end so, one after another (R93, R100, R142).
The form of a host program and its patience are the model's choice (log entry 22), as is a report made at the end (log entry 23), as are the script and the log (log entry 4). -/
def Obligations.ScanReportsTheCandidatesWithOk : Prop :=
  ∀ (s : State) (result : Nat → Result) (answers : Nat → List StatusWord) (rest : List StatusWord) (patience : Nat),
    s.phase = .idle → s.script = [] →
    s.statusAnswers = (List.range 127).flatMap answers ++ rest →
    (∀ c, c < 127 → pingAnswers s.params (result c) (answers c) ∧ (answers c).length + 5 ≤ patience) →
    ∃ t, scan patience s = .finished ((List.range 127).filter fun c => result c == .ok) t ∧
      t.phase = .idle ∧ t.returned = some (result 0x7E) ∧ t.statusAnswers = rest ∧ t.buffer = s.buffer ∧
      t.hostLog = ((List.range 127).map fun c => HostSeen.offered (encode (.ping c 0 0)) true).reverse ++ s.hostLog
end

