-- ==== Sys2Proof/Laws/Decode.lean ====
section
/-! SUPPORT. The fields of an encoded command and the codes. -/

namespace Sys2Proof

@[simp] theorem Op.ofCode_code (op : Op) : Op.ofCode op.code = some op := by cases op <;> rfl

theorem Op.code_of_ofCode {c : BitVec 2} {o : Op} (h : Op.ofCode c = some o) : o.code = c := by
  revert c o; decide

theorem Op.ofCode_eq_none_iff (c : BitVec 2) : Op.ofCode c = none ↔ c = 0#2 := by
  revert c; decide

@[simp] theorem Phase.ofCode_code (p : Phase) : Phase.ofCode p.code = some p := by cases p <;> rfl

namespace Instr

@[simp] theorem ofFields_op (op : Op) (a r n : Nat) : (ofFields op a r n).op = op := by cases op <;> rfl
@[simp] theorem ofFields_addr (op : Op) (a r n : Nat) : (ofFields op a r n).addr = a := by cases op <;> rfl
@[simp] theorem ofFields_reg (op : Op) (a r n : Nat) : (ofFields op a r n).reg = r := by cases op <;> rfl
@[simp] theorem ofFields_len (op : Op) (a r n : Nat) : (ofFields op a r n).len = n := by cases op <;> rfl
@[simp] theorem ofFields_self (i : Instr) : ofFields i.op i.addr i.reg i.len = i := by cases i <;> rfl

theorem wellFormed_iff (i : Instr) : i.wellFormed = true ↔ i.addr < 128 ∧ i.reg < 256 ∧ i.len < 256 := by
  simp only [wellFormed, addrInRange, regInRange, lenInRange, Bool.and_eq_true, decide_eq_true_eq]
  omega

end Instr

/-- The bits of an encoded command: LEN, REG, ADDR, a 0 for AX, OP, zeros. -/
theorem encode_toNat {i : Instr} (h : i.wellFormed = true) :
    (encode i).toNat = i.op.code.toNat * 2 ^ 24 + i.addr * 2 ^ 16 + i.reg * 2 ^ 8 + i.len := by
  obtain ⟨ha, hr, hn⟩ := (Instr.wellFormed_iff i).1 h
  have e1 : (BitVec.ofNat 32 i.addr <<< 16).toNat = i.addr <<< 16 := by
    simp [Nat.shiftLeft_eq]; omega
  have e2 : (BitVec.ofNat 32 i.reg <<< 8).toNat = i.reg <<< 8 := by
    simp [Nat.shiftLeft_eq]; omega
  have e3 : (BitVec.ofNat 32 i.len).toNat = i.len := by simp; omega
  have e0 : (opcodeMatch i.op).toNat = i.op.code.toNat <<< 24 := by cases i.op <;> rfl
  have l1 : i.addr <<< 16 < 2 ^ 24 := by rw [Nat.shiftLeft_eq]; omega
  have l2 : i.reg <<< 8 < 2 ^ 16 := by rw [Nat.shiftLeft_eq]; omega
  unfold encode
  rw [BitVec.toNat_or, BitVec.toNat_or, BitVec.toNat_or, e0, e1, e2, e3, ← Nat.shiftLeft_add_eq_or_of_lt l1,
    Nat.or_assoc, ← Nat.shiftLeft_add_eq_or_of_lt (b := i.len) (i := 8) (by omega)]
  have l3 : i.reg <<< 8 + i.len < 2 ^ 16 := by rw [Nat.shiftLeft_eq]; omega
  have : i.op.code.toNat <<< 24 + i.addr <<< 16 = (i.op.code.toNat <<< 8 + i.addr) <<< 16 := by
    simp only [Nat.shiftLeft_eq]; omega
  rw [this, ← Nat.shiftLeft_add_eq_or_of_lt l3]
  simp only [Nat.shiftLeft_eq]
  omega

/-- All the decoder can accept: the reserved bits are 0, OP names the operation, the operands are the fields (R68). -/
theorem decode_ok_iff (w : CommandWord) (i : Instr) :
    decode w = .ok i ↔ rsvField w = 0#6 ∧ opField w = i.op.code ∧ i.addr = (addrField w).toNat ∧
      i.reg = (regField w).toNat ∧ i.len = (lenField w).toNat := by
  unfold decode
  by_cases h : rsvField w = 0#6
  · simp only [h, ne_eq, not_true_eq_false, if_false, true_and]
    cases ho : Op.ofCode (opField w) with
    | none =>
      rw [Op.ofCode_eq_none_iff] at ho
      simp [ho]
      cases i <;> simp [Instr.op, Op.code]
    | some o =>
      have hc := Op.code_of_ofCode ho
      simp only [Except.ok.injEq]
      constructor
      · rintro rfl
        simp [hc]
      · rintro ⟨h1, h2, h3, h4⟩
        have : o = i.op := by
          have h5 := ho
          rw [h1, Op.ofCode_code] at h5
          injection h5 with h5
          exact h5.symm
        rw [← h2, ← h3, ← h4, this]
        exact Instr.ofFields_self i
  · simp [h]

/-- The fields make up the word, bit 23 apart (R53). -/
theorem word_toNat (w : CommandWord) :
    w.toNat = (rsvField w).toNat * 2 ^ 26 + (opField w).toNat * 2 ^ 24 + (w.toNat / 2 ^ 23 % 2) * 2 ^ 23 +
      (addrField w).toNat * 2 ^ 16 + (regField w).toNat * 2 ^ 8 + (lenField w).toNat := by
  have := w.isLt
  simp [rsvField, opField, addrField, regField, lenField, BitVec.extractLsb', Nat.shiftRight_eq_div_pow]
  omega

end Sys2Proof
end

