-- ==== Sys2Proof/Laws/Memory.lean ====
section
/-! SUPPORT. The laws of the transfer buffer: read after write, a write leaves every other index alone, every write keeps the canonical form. -/

namespace Sys2Proof.Machine.Memory

@[simp] theorem get_nil (i : Nat) : get [] i = unlisted := rfl

@[simp] theorem get_cons (k : Nat) (v : Byte) (m : Memory) (i : Nat) :
    get ((k, v) :: m) i = if k = i then v else get m i := rfl

/-- An index below every listed one reads as unlisted. -/
theorem get_of_forall_lt {m : Memory} {i : Nat} (h : ∀ c ∈ m, i < c.1) : get m i = unlisted := by
  induction m with
  | nil => rfl
  | cons c m ih =>
    obtain ⟨k, v⟩ := c
    have hk : i < k := h (k, v) (by simp)
    rw [get_cons, if_neg (by omega)]
    exact ih fun c hc => h c (by simp [hc])

/-- A write leaves every other index alone. -/
theorem get_put_of_ne {m : Memory} {i j : Nat} (v : Byte) (h : j ≠ i) : get (put m i v) j = get m j := by
  induction m with
  | nil => by_cases hv : v = unlisted <;> simp [put, hv, Ne.symm h]
  | cons c m ih =>
    obtain ⟨k, w⟩ := c
    simp only [put]
    split
    · split <;> simp [Ne.symm h]
    · split
      · rename_i hk
        subst hk
        split <;> simp [Ne.symm h]
      · simp [ih]

theorem wf_nil : wf [] := ⟨List.Pairwise.nil, by simp⟩

theorem wf_tail {c : Host.Cell} {m : Memory} (h : wf (c :: m)) : wf m :=
  ⟨(List.pairwise_cons.1 h.1).2, fun d hd => h.2 d (List.mem_cons_of_mem _ hd)⟩

/-- The byte written is the byte read. -/
theorem get_put_self {m : Memory} (hm : wf m) (i : Nat) (v : Byte) : get (put m i v) i = v := by
  induction m with
  | nil => by_cases hv : v = unlisted <;> simp [put, hv]
  | cons c m ih =>
    obtain ⟨k, w⟩ := c
    have hlt : ∀ c ∈ m, k < c.1 := fun c hc => (List.pairwise_cons.1 hm.1).1 c hc
    simp only [put]
    split
    · rename_i hik
      split
      · rename_i hv
        rw [hv]
        refine get_of_forall_lt fun c hc => ?_
        rcases List.mem_cons.1 hc with rfl | hc
        · exact hik
        · exact lt_trans hik (hlt c hc)
      · simp
    · split
      · rename_i hki
        split
        · rename_i hv
          rw [hv]
          exact get_of_forall_lt fun c hc => by have := hlt c hc; omega
        · simp
      · rename_i hki
        rw [get_cons, if_neg (Ne.symm hki)]
        exact ih (wf_tail hm)

/-- Every cell of a written memory is the cell written or was there before. -/
theorem mem_put {m : Memory} {i : Nat} {v : Byte} {c : Host.Cell} (h : c ∈ put m i v) :
    (c = (i, v) ∧ v ≠ unlisted) ∨ c ∈ m := by
  induction m with
  | nil =>
    by_cases hv : v = unlisted
    · simp [put, hv] at h
    · simp [put, hv] at h
      exact .inl ⟨h, hv⟩
  | cons d m ih =>
    obtain ⟨k, w⟩ := d
    simp only [put] at h
    split at h
    · split at h
      · exact .inr h
      · rename_i hv
        rcases List.mem_cons.1 h with rfl | h
        · exact .inl ⟨rfl, hv⟩
        · exact .inr h
    · split at h
      · split at h
        · exact .inr (List.mem_cons_of_mem _ h)
        · rename_i hv
          rcases List.mem_cons.1 h with rfl | h
          · exact .inl ⟨rfl, hv⟩
          · exact .inr (List.mem_cons_of_mem _ h)
      · rcases List.mem_cons.1 h with rfl | h
        · exact .inr (by simp)
        · exact (ih h).imp id (List.mem_cons_of_mem _)

/-- Every write inside the buffer space keeps the canonical form. -/
theorem wf_put {m : Memory} (hm : wf m) {i : Nat} (hi : i < bufferSpace) (v : Byte) : wf (put m i v) := by
  refine ⟨?_, fun c hc => ?_⟩
  · induction m with
    | nil => by_cases hv : v = unlisted <;> simp [put, hv]
    | cons c m ih =>
      obtain ⟨k, w⟩ := c
      obtain ⟨hlt, htl⟩ := List.pairwise_cons.1 hm.1
      simp only [put]
      split
      · rename_i hik
        split
        · exact hm.1
        · refine List.pairwise_cons.2 ⟨fun d hd => ?_, hm.1⟩
          rcases List.mem_cons.1 hd with rfl | hd
          · exact hik
          · exact lt_trans hik (hlt d hd)
      · split
        · rename_i hki
          split
          · exact htl
          · exact List.pairwise_cons.2 ⟨fun d hd => by have := hlt d hd; simp only at *; omega, htl⟩
        · refine List.pairwise_cons.2 ⟨fun d hd => ?_, ih (wf_tail hm)⟩
          rcases mem_put hd with ⟨rfl, _⟩ | hd
          · simp only at *; omega
          · exact hlt d hd
  · rcases mem_put hc with ⟨rfl, hv⟩ | hc
    · exact ⟨hv, hi⟩
    · exact hm.2 c hc

/-- The buffer of the reset state is canonical. -/
theorem wf_reset : wf State.reset.buffer := wf_nil

end Sys2Proof.Machine.Memory
end

