-- ==== Sys2Proof/Laws/State.lean ====
section
/-! SUPPORT. What each update of the state leaves in each field: one lemma per field per update, so that no proof unfolds a record update. -/

namespace Sys2Proof.Machine.State

section
variable (i : Instr) (s : State)

@[simp] theorem latch_op : (s.latch i).op = i.op := rfl
@[simp] theorem latch_addr : (s.latch i).addr = BitVec.ofNat 7 i.addr := rfl
@[simp] theorem latch_reg : (s.latch i).reg = BitVec.ofNat 8 i.reg := rfl
@[simp] theorem latch_len : (s.latch i).len = BitVec.ofNat 8 i.len := rfl
@[simp] theorem latch_idx : (s.latch i).idx = s.idx := rfl
@[simp] theorem latch_tmo : (s.latch i).tmo = s.tmo := rfl
@[simp] theorem latch_phase : (s.latch i).phase = s.phase := rfl
@[simp] theorem latch_result : (s.latch i).result = s.result := rfl
@[simp] theorem latch_done : (s.latch i).done = s.done := rfl
@[simp] theorem latch_params : (s.latch i).params = s.params := rfl
@[simp] theorem latch_buffer : (s.latch i).buffer = s.buffer := rfl
@[simp] theorem latch_bufferSize : (s.latch i).bufferSize = s.bufferSize := rfl
@[simp] theorem latch_script : (s.latch i).script = s.script := rfl
@[simp] theorem latch_hostLog : (s.latch i).hostLog = s.hostLog := rfl
@[simp] theorem latch_statusAnswers : (s.latch i).statusAnswers = s.statusAnswers := rfl
@[simp] theorem latch_dataAnswers : (s.latch i).dataAnswers = s.dataAnswers := rfl
@[simp] theorem latch_fresh : (s.latch i).fresh = s.fresh := rfl
@[simp] theorem latch_trace : (s.latch i).trace = s.trace := rfl

end

section
variable (i : Instr) (s : State)

@[simp] theorem accept_op : (s.accept i).op = i.op := rfl
@[simp] theorem accept_addr : (s.accept i).addr = BitVec.ofNat 7 i.addr := rfl
@[simp] theorem accept_reg : (s.accept i).reg = BitVec.ofNat 8 i.reg := rfl
@[simp] theorem accept_len : (s.accept i).len = BitVec.ofNat 8 i.len := rfl
@[simp] theorem accept_idx : (s.accept i).idx = 0#8 := rfl
@[simp] theorem accept_tmo : (s.accept i).tmo = s.params.tIdle := rfl
@[simp] theorem accept_phase : (s.accept i).phase = .busWait := rfl
@[simp] theorem accept_result : (s.accept i).result = s.result := rfl
@[simp] theorem accept_done : (s.accept i).done = false := rfl
@[simp] theorem accept_params : (s.accept i).params = s.params := rfl
@[simp] theorem accept_buffer : (s.accept i).buffer = s.buffer := rfl
@[simp] theorem accept_bufferSize : (s.accept i).bufferSize = s.bufferSize := rfl
@[simp] theorem accept_script : (s.accept i).script = s.script := rfl
@[simp] theorem accept_hostLog : (s.accept i).hostLog = s.hostLog := rfl
@[simp] theorem accept_statusAnswers : (s.accept i).statusAnswers = s.statusAnswers := rfl
@[simp] theorem accept_dataAnswers : (s.accept i).dataAnswers = s.dataAnswers := rfl
@[simp] theorem accept_fresh : (s.accept i).fresh = s.fresh := rfl
@[simp] theorem accept_trace : (s.accept i).trace = s.trace := rfl

end

section
variable (a : Action) (s : State)

@[simp] theorem act_op : (s.act a).op = s.op := rfl
@[simp] theorem act_addr : (s.act a).addr = s.addr := rfl
@[simp] theorem act_reg : (s.act a).reg = s.reg := rfl
@[simp] theorem act_len : (s.act a).len = s.len := rfl
@[simp] theorem act_idx : (s.act a).idx = s.idx := rfl
@[simp] theorem act_tmo : (s.act a).tmo = s.tmo := rfl
@[simp] theorem act_phase : (s.act a).phase = s.phase := rfl
@[simp] theorem act_result : (s.act a).result = s.result := rfl
@[simp] theorem act_done : (s.act a).done = s.done := rfl
@[simp] theorem act_params : (s.act a).params = s.params := rfl
@[simp] theorem act_buffer : (s.act a).buffer = s.buffer := rfl
@[simp] theorem act_bufferSize : (s.act a).bufferSize = s.bufferSize := rfl
@[simp] theorem act_script : (s.act a).script = s.script := rfl
@[simp] theorem act_hostLog : (s.act a).hostLog = s.hostLog := rfl
@[simp] theorem act_statusAnswers : (s.act a).statusAnswers = s.statusAnswers := rfl
@[simp] theorem act_dataAnswers : (s.act a).dataAnswers = s.dataAnswers := rfl
@[simp] theorem act_fresh : (s.act a).fresh = s.fresh := rfl
@[simp] theorem act_trace : (s.act a).trace = a :: s.trace := rfl

end

section
variable (s : State)

@[simp] theorem sampled_op : (s.sampled).op = s.op := rfl
@[simp] theorem sampled_addr : (s.sampled).addr = s.addr := rfl
@[simp] theorem sampled_reg : (s.sampled).reg = s.reg := rfl
@[simp] theorem sampled_len : (s.sampled).len = s.len := rfl
@[simp] theorem sampled_idx : (s.sampled).idx = s.idx := rfl
@[simp] theorem sampled_tmo : (s.sampled).tmo = s.tmo := rfl
@[simp] theorem sampled_phase : (s.sampled).phase = s.phase := rfl
@[simp] theorem sampled_result : (s.sampled).result = s.result := rfl
@[simp] theorem sampled_done : (s.sampled).done = s.done := rfl
@[simp] theorem sampled_params : (s.sampled).params = s.params := rfl
@[simp] theorem sampled_buffer : (s.sampled).buffer = s.buffer := rfl
@[simp] theorem sampled_bufferSize : (s.sampled).bufferSize = s.bufferSize := rfl
@[simp] theorem sampled_script : (s.sampled).script = s.script := rfl
@[simp] theorem sampled_hostLog : (s.sampled).hostLog = s.hostLog := rfl
@[simp] theorem sampled_statusAnswers : (s.sampled).statusAnswers = s.statusAnswers.tail := rfl
@[simp] theorem sampled_dataAnswers : (s.sampled).dataAnswers = s.dataAnswers := rfl
@[simp] theorem sampled_fresh : (s.sampled).fresh = s.fresh + 1 := rfl
@[simp] theorem sampled_trace : (s.sampled).trace = .statusRd s.statusWord :: s.trace := rfl

end

section
variable (s : State)

@[simp] theorem dataTaken_op : (s.dataTaken).op = s.op := rfl
@[simp] theorem dataTaken_addr : (s.dataTaken).addr = s.addr := rfl
@[simp] theorem dataTaken_reg : (s.dataTaken).reg = s.reg := rfl
@[simp] theorem dataTaken_len : (s.dataTaken).len = s.len := rfl
@[simp] theorem dataTaken_idx : (s.dataTaken).idx = s.idx := rfl
@[simp] theorem dataTaken_tmo : (s.dataTaken).tmo = s.tmo := rfl
@[simp] theorem dataTaken_phase : (s.dataTaken).phase = s.phase := rfl
@[simp] theorem dataTaken_result : (s.dataTaken).result = s.result := rfl
@[simp] theorem dataTaken_done : (s.dataTaken).done = s.done := rfl
@[simp] theorem dataTaken_params : (s.dataTaken).params = s.params := rfl
@[simp] theorem dataTaken_buffer : (s.dataTaken).buffer = s.buffer := rfl
@[simp] theorem dataTaken_bufferSize : (s.dataTaken).bufferSize = s.bufferSize := rfl
@[simp] theorem dataTaken_script : (s.dataTaken).script = s.script := rfl
@[simp] theorem dataTaken_hostLog : (s.dataTaken).hostLog = s.hostLog := rfl
@[simp] theorem dataTaken_statusAnswers : (s.dataTaken).statusAnswers = s.statusAnswers := rfl
@[simp] theorem dataTaken_dataAnswers : (s.dataTaken).dataAnswers = s.dataAnswers.tail := rfl
@[simp] theorem dataTaken_fresh : (s.dataTaken).fresh = s.fresh + 1 := rfl
@[simp] theorem dataTaken_trace : (s.dataTaken).trace = .dataRd s.dataByte :: s.trace := rfl

end

section
variable (p : Phase) (s : State)

@[simp] theorem goto_op : (s.goto p).op = s.op := rfl
@[simp] theorem goto_addr : (s.goto p).addr = s.addr := rfl
@[simp] theorem goto_reg : (s.goto p).reg = s.reg := rfl
@[simp] theorem goto_len : (s.goto p).len = s.len := rfl
@[simp] theorem goto_idx : (s.goto p).idx = s.idx := rfl
@[simp] theorem goto_tmo : (s.goto p).tmo = s.tmo := rfl
@[simp] theorem goto_phase : (s.goto p).phase = p := rfl
@[simp] theorem goto_result : (s.goto p).result = s.result := rfl
@[simp] theorem goto_done : (s.goto p).done = s.done := rfl
@[simp] theorem goto_params : (s.goto p).params = s.params := rfl
@[simp] theorem goto_buffer : (s.goto p).buffer = s.buffer := rfl
@[simp] theorem goto_bufferSize : (s.goto p).bufferSize = s.bufferSize := rfl
@[simp] theorem goto_script : (s.goto p).script = s.script := rfl
@[simp] theorem goto_hostLog : (s.goto p).hostLog = s.hostLog := rfl
@[simp] theorem goto_statusAnswers : (s.goto p).statusAnswers = s.statusAnswers := rfl
@[simp] theorem goto_dataAnswers : (s.goto p).dataAnswers = s.dataAnswers := rfl
@[simp] theorem goto_fresh : (s.goto p).fresh = s.fresh := rfl
@[simp] theorem goto_trace : (s.goto p).trace = s.trace := rfl

end

section
variable (r : Result) (s : State)

@[simp] theorem setResult_op : (s.setResult r).op = s.op := rfl
@[simp] theorem setResult_addr : (s.setResult r).addr = s.addr := rfl
@[simp] theorem setResult_reg : (s.setResult r).reg = s.reg := rfl
@[simp] theorem setResult_len : (s.setResult r).len = s.len := rfl
@[simp] theorem setResult_idx : (s.setResult r).idx = s.idx := rfl
@[simp] theorem setResult_tmo : (s.setResult r).tmo = s.tmo := rfl
@[simp] theorem setResult_phase : (s.setResult r).phase = s.phase := rfl
@[simp] theorem setResult_result : (s.setResult r).result = r := rfl
@[simp] theorem setResult_done : (s.setResult r).done = s.done := rfl
@[simp] theorem setResult_params : (s.setResult r).params = s.params := rfl
@[simp] theorem setResult_buffer : (s.setResult r).buffer = s.buffer := rfl
@[simp] theorem setResult_bufferSize : (s.setResult r).bufferSize = s.bufferSize := rfl
@[simp] theorem setResult_script : (s.setResult r).script = s.script := rfl
@[simp] theorem setResult_hostLog : (s.setResult r).hostLog = s.hostLog := rfl
@[simp] theorem setResult_statusAnswers : (s.setResult r).statusAnswers = s.statusAnswers := rfl
@[simp] theorem setResult_dataAnswers : (s.setResult r).dataAnswers = s.dataAnswers := rfl
@[simp] theorem setResult_fresh : (s.setResult r).fresh = s.fresh := rfl
@[simp] theorem setResult_trace : (s.setResult r).trace = s.trace := rfl

end

section
variable (n : Counter) (s : State)

@[simp] theorem load_op : (s.load n).op = s.op := rfl
@[simp] theorem load_addr : (s.load n).addr = s.addr := rfl
@[simp] theorem load_reg : (s.load n).reg = s.reg := rfl
@[simp] theorem load_len : (s.load n).len = s.len := rfl
@[simp] theorem load_idx : (s.load n).idx = s.idx := rfl
@[simp] theorem load_tmo : (s.load n).tmo = n := rfl
@[simp] theorem load_phase : (s.load n).phase = s.phase := rfl
@[simp] theorem load_result : (s.load n).result = s.result := rfl
@[simp] theorem load_done : (s.load n).done = s.done := rfl
@[simp] theorem load_params : (s.load n).params = s.params := rfl
@[simp] theorem load_buffer : (s.load n).buffer = s.buffer := rfl
@[simp] theorem load_bufferSize : (s.load n).bufferSize = s.bufferSize := rfl
@[simp] theorem load_script : (s.load n).script = s.script := rfl
@[simp] theorem load_hostLog : (s.load n).hostLog = s.hostLog := rfl
@[simp] theorem load_statusAnswers : (s.load n).statusAnswers = s.statusAnswers := rfl
@[simp] theorem load_dataAnswers : (s.load n).dataAnswers = s.dataAnswers := rfl
@[simp] theorem load_fresh : (s.load n).fresh = s.fresh := rfl
@[simp] theorem load_trace : (s.load n).trace = s.trace := rfl

end

section
variable (s : State)

@[simp] theorem advance_op : (s.advance).op = s.op := rfl
@[simp] theorem advance_addr : (s.advance).addr = s.addr := rfl
@[simp] theorem advance_reg : (s.advance).reg = s.reg := rfl
@[simp] theorem advance_len : (s.advance).len = s.len := rfl
@[simp] theorem advance_idx : (s.advance).idx = s.idx + 1#8 := rfl
@[simp] theorem advance_tmo : (s.advance).tmo = s.tmo := rfl
@[simp] theorem advance_phase : (s.advance).phase = s.phase := rfl
@[simp] theorem advance_result : (s.advance).result = s.result := rfl
@[simp] theorem advance_done : (s.advance).done = s.done := rfl
@[simp] theorem advance_params : (s.advance).params = s.params := rfl
@[simp] theorem advance_buffer : (s.advance).buffer = s.buffer := rfl
@[simp] theorem advance_bufferSize : (s.advance).bufferSize = s.bufferSize := rfl
@[simp] theorem advance_script : (s.advance).script = s.script := rfl
@[simp] theorem advance_hostLog : (s.advance).hostLog = s.hostLog := rfl
@[simp] theorem advance_statusAnswers : (s.advance).statusAnswers = s.statusAnswers := rfl
@[simp] theorem advance_dataAnswers : (s.advance).dataAnswers = s.dataAnswers := rfl
@[simp] theorem advance_fresh : (s.advance).fresh = s.fresh := rfl
@[simp] theorem advance_trace : (s.advance).trace = s.trace := rfl

end

section
variable (s : State)

@[simp] theorem finish_op : (s.finish).op = s.op := rfl
@[simp] theorem finish_addr : (s.finish).addr = s.addr := rfl
@[simp] theorem finish_reg : (s.finish).reg = s.reg := rfl
@[simp] theorem finish_len : (s.finish).len = s.len := rfl
@[simp] theorem finish_idx : (s.finish).idx = s.idx := rfl
@[simp] theorem finish_tmo : (s.finish).tmo = s.tmo := rfl
@[simp] theorem finish_phase : (s.finish).phase = .idle := rfl
@[simp] theorem finish_result : (s.finish).result = s.result := rfl
@[simp] theorem finish_done : (s.finish).done = true := rfl
@[simp] theorem finish_params : (s.finish).params = s.params := rfl
@[simp] theorem finish_buffer : (s.finish).buffer = s.buffer := rfl
@[simp] theorem finish_bufferSize : (s.finish).bufferSize = s.bufferSize := rfl
@[simp] theorem finish_script : (s.finish).script = s.script := rfl
@[simp] theorem finish_hostLog : (s.finish).hostLog = s.hostLog := rfl
@[simp] theorem finish_statusAnswers : (s.finish).statusAnswers = s.statusAnswers := rfl
@[simp] theorem finish_dataAnswers : (s.finish).dataAnswers = s.dataAnswers := rfl
@[simp] theorem finish_fresh : (s.finish).fresh = s.fresh := rfl
@[simp] theorem finish_trace : (s.finish).trace = s.trace := rfl

end

section
variable (r : Result) (s : State)

@[simp] theorem raiseFailure_op : (s.raiseFailure r).op = s.op := rfl
@[simp] theorem raiseFailure_addr : (s.raiseFailure r).addr = s.addr := rfl
@[simp] theorem raiseFailure_reg : (s.raiseFailure r).reg = s.reg := rfl
@[simp] theorem raiseFailure_len : (s.raiseFailure r).len = s.len := rfl
@[simp] theorem raiseFailure_idx : (s.raiseFailure r).idx = s.idx := rfl
@[simp] theorem raiseFailure_tmo : (s.raiseFailure r).tmo = s.tmo := rfl
@[simp] theorem raiseFailure_phase : (s.raiseFailure r).phase = .idle := rfl
@[simp] theorem raiseFailure_result : (s.raiseFailure r).result = r := rfl
@[simp] theorem raiseFailure_done : (s.raiseFailure r).done = true := rfl
@[simp] theorem raiseFailure_params : (s.raiseFailure r).params = s.params := rfl
@[simp] theorem raiseFailure_buffer : (s.raiseFailure r).buffer = s.buffer := rfl
@[simp] theorem raiseFailure_bufferSize : (s.raiseFailure r).bufferSize = s.bufferSize := rfl
@[simp] theorem raiseFailure_script : (s.raiseFailure r).script = s.script := rfl
@[simp] theorem raiseFailure_hostLog : (s.raiseFailure r).hostLog = s.hostLog := rfl
@[simp] theorem raiseFailure_statusAnswers : (s.raiseFailure r).statusAnswers = s.statusAnswers := rfl
@[simp] theorem raiseFailure_dataAnswers : (s.raiseFailure r).dataAnswers = s.dataAnswers := rfl
@[simp] theorem raiseFailure_fresh : (s.raiseFailure r).fresh = s.fresh := rfl
@[simp] theorem raiseFailure_trace : (s.raiseFailure r).trace = s.trace := rfl

end

section
variable (r : Result) (s : State)

@[simp] theorem failThroughStop_op : (s.failThroughStop r).op = s.op := rfl
@[simp] theorem failThroughStop_addr : (s.failThroughStop r).addr = s.addr := rfl
@[simp] theorem failThroughStop_reg : (s.failThroughStop r).reg = s.reg := rfl
@[simp] theorem failThroughStop_len : (s.failThroughStop r).len = s.len := rfl
@[simp] theorem failThroughStop_idx : (s.failThroughStop r).idx = s.idx := rfl
@[simp] theorem failThroughStop_tmo : (s.failThroughStop r).tmo = s.tmo := rfl
@[simp] theorem failThroughStop_phase : (s.failThroughStop r).phase = .stop := rfl
@[simp] theorem failThroughStop_result : (s.failThroughStop r).result = r := rfl
@[simp] theorem failThroughStop_done : (s.failThroughStop r).done = s.done := rfl
@[simp] theorem failThroughStop_params : (s.failThroughStop r).params = s.params := rfl
@[simp] theorem failThroughStop_buffer : (s.failThroughStop r).buffer = s.buffer := rfl
@[simp] theorem failThroughStop_bufferSize : (s.failThroughStop r).bufferSize = s.bufferSize := rfl
@[simp] theorem failThroughStop_script : (s.failThroughStop r).script = s.script := rfl
@[simp] theorem failThroughStop_hostLog : (s.failThroughStop r).hostLog = s.hostLog := rfl
@[simp] theorem failThroughStop_statusAnswers : (s.failThroughStop r).statusAnswers = s.statusAnswers := rfl
@[simp] theorem failThroughStop_dataAnswers : (s.failThroughStop r).dataAnswers = s.dataAnswers := rfl
@[simp] theorem failThroughStop_fresh : (s.failThroughStop r).fresh = s.fresh := rfl
@[simp] theorem failThroughStop_trace : (s.failThroughStop r).trace = s.trace := rfl

end

section
variable (h : HostSeen) (s : State)

@[simp] theorem note_op : (s.note h).op = s.op := rfl
@[simp] theorem note_addr : (s.note h).addr = s.addr := rfl
@[simp] theorem note_reg : (s.note h).reg = s.reg := rfl
@[simp] theorem note_len : (s.note h).len = s.len := rfl
@[simp] theorem note_idx : (s.note h).idx = s.idx := rfl
@[simp] theorem note_tmo : (s.note h).tmo = s.tmo := rfl
@[simp] theorem note_phase : (s.note h).phase = s.phase := rfl
@[simp] theorem note_result : (s.note h).result = s.result := rfl
@[simp] theorem note_done : (s.note h).done = s.done := rfl
@[simp] theorem note_params : (s.note h).params = s.params := rfl
@[simp] theorem note_buffer : (s.note h).buffer = s.buffer := rfl
@[simp] theorem note_bufferSize : (s.note h).bufferSize = s.bufferSize := rfl
@[simp] theorem note_script : (s.note h).script = s.script := rfl
@[simp] theorem note_hostLog : (s.note h).hostLog = h :: s.hostLog := rfl
@[simp] theorem note_statusAnswers : (s.note h).statusAnswers = s.statusAnswers := rfl
@[simp] theorem note_dataAnswers : (s.note h).dataAnswers = s.dataAnswers := rfl
@[simp] theorem note_fresh : (s.note h).fresh = s.fresh := rfl
@[simp] theorem note_trace : (s.note h).trace = s.trace := rfl

end

section
variable (n : Nat) (s : State)

@[simp] theorem provide_op : (s.provide n).op = s.op := rfl
@[simp] theorem provide_addr : (s.provide n).addr = s.addr := rfl
@[simp] theorem provide_reg : (s.provide n).reg = s.reg := rfl
@[simp] theorem provide_len : (s.provide n).len = s.len := rfl
@[simp] theorem provide_idx : (s.provide n).idx = s.idx := rfl
@[simp] theorem provide_tmo : (s.provide n).tmo = s.tmo := rfl
@[simp] theorem provide_phase : (s.provide n).phase = s.phase := rfl
@[simp] theorem provide_result : (s.provide n).result = s.result := rfl
@[simp] theorem provide_done : (s.provide n).done = s.done := rfl
@[simp] theorem provide_params : (s.provide n).params = s.params := rfl
@[simp] theorem provide_buffer : (s.provide n).buffer = s.buffer := rfl
@[simp] theorem provide_bufferSize : (s.provide n).bufferSize = n := rfl
@[simp] theorem provide_script : (s.provide n).script = s.script := rfl
@[simp] theorem provide_hostLog : (s.provide n).hostLog = s.hostLog := rfl
@[simp] theorem provide_statusAnswers : (s.provide n).statusAnswers = s.statusAnswers := rfl
@[simp] theorem provide_dataAnswers : (s.provide n).dataAnswers = s.dataAnswers := rfl
@[simp] theorem provide_fresh : (s.provide n).fresh = s.fresh := rfl
@[simp] theorem provide_trace : (s.provide n).trace = s.trace := rfl

end

section
variable (s : State)

@[simp] theorem resetInput_op : (s.resetInput).op = Config.freeOp s.fresh := rfl
@[simp] theorem resetInput_addr : (s.resetInput).addr = Config.freeAddr s.fresh := rfl
@[simp] theorem resetInput_reg : (s.resetInput).reg = Config.freeReg s.fresh := rfl
@[simp] theorem resetInput_len : (s.resetInput).len = Config.freeLen s.fresh := rfl
@[simp] theorem resetInput_idx : (s.resetInput).idx = Config.freeIdx s.fresh := rfl
@[simp] theorem resetInput_tmo : (s.resetInput).tmo = Config.freeTmo s.fresh := rfl
@[simp] theorem resetInput_phase : (s.resetInput).phase = .idle := rfl
@[simp] theorem resetInput_result : (s.resetInput).result = Config.freeResult s.fresh := rfl
@[simp] theorem resetInput_done : (s.resetInput).done = false := rfl
@[simp] theorem resetInput_params : (s.resetInput).params = s.params := rfl
@[simp] theorem resetInput_buffer : (s.resetInput).buffer = s.buffer := rfl
@[simp] theorem resetInput_bufferSize : (s.resetInput).bufferSize = s.bufferSize := rfl
@[simp] theorem resetInput_script : (s.resetInput).script = s.script := rfl
@[simp] theorem resetInput_hostLog : (s.resetInput).hostLog = s.hostLog := rfl
@[simp] theorem resetInput_statusAnswers : (s.resetInput).statusAnswers = s.statusAnswers := rfl
@[simp] theorem resetInput_dataAnswers : (s.resetInput).dataAnswers = s.dataAnswers := rfl
@[simp] theorem resetInput_fresh : (s.resetInput).fresh = s.fresh + 1 := rfl
@[simp] theorem resetInput_trace : (s.resetInput).trace = s.trace := rfl

end

section
variable (i : Nat) (v : Byte) (s : State)

@[simp] theorem stored_op : (s.stored i v).op = s.op := rfl
@[simp] theorem stored_addr : (s.stored i v).addr = s.addr := rfl
@[simp] theorem stored_reg : (s.stored i v).reg = s.reg := rfl
@[simp] theorem stored_len : (s.stored i v).len = s.len := rfl
@[simp] theorem stored_idx : (s.stored i v).idx = s.idx := rfl
@[simp] theorem stored_tmo : (s.stored i v).tmo = s.tmo := rfl
@[simp] theorem stored_phase : (s.stored i v).phase = s.phase := rfl
@[simp] theorem stored_result : (s.stored i v).result = s.result := rfl
@[simp] theorem stored_done : (s.stored i v).done = s.done := rfl
@[simp] theorem stored_params : (s.stored i v).params = s.params := rfl
@[simp] theorem stored_buffer : (s.stored i v).buffer = Memory.put s.buffer i v := rfl
@[simp] theorem stored_bufferSize : (s.stored i v).bufferSize = s.bufferSize := rfl
@[simp] theorem stored_script : (s.stored i v).script = s.script := rfl
@[simp] theorem stored_hostLog : (s.stored i v).hostLog = s.hostLog := rfl
@[simp] theorem stored_statusAnswers : (s.stored i v).statusAnswers = s.statusAnswers := rfl
@[simp] theorem stored_dataAnswers : (s.stored i v).dataAnswers = s.dataAnswers := rfl
@[simp] theorem stored_fresh : (s.stored i v).fresh = s.fresh := rfl
@[simp] theorem stored_trace : (s.stored i v).trace = s.trace := rfl

end

end Sys2Proof.Machine.State
end

