-- ==== Sys2Proof/Laws/Ops.lean ====
section
/-! SUPPORT. One specification lemma for each shared operation: all it can do. -/

namespace Sys2Proof.Machine

/-! ### The buffer -/

/-- A buffer read completes exactly inside the space and the bytes provided, and reads the byte there. -/
theorem memRead_next_iff (i : Byte) (s : State) (v : Byte) :
    memRead i s = .next v ↔ i.toNat < bufferSpace ∧ i.toNat < s.bufferSize ∧ v = Memory.get s.buffer i.toNat := by
  unfold memRead
  split
  · simp; omega
  · split
    · simp; omega
    · simp only [Host.Outcome.next.injEq]
      constructor
      · rintro rfl; exact ⟨by omega, by omega, rfl⟩
      · rintro ⟨_, _, rfl⟩; rfl

/-- A buffer write completes exactly inside the space and the bytes provided, and changes the buffer only. -/
theorem memWrite_next_iff (i v : Byte) (s t : State) :
    memWrite i v s = .next t ↔
      i.toNat < bufferSpace ∧ i.toNat < s.bufferSize ∧ t = s.stored i.toNat v := by
  unfold memWrite
  split
  · simp; omega
  · split
    · simp; omega
    · simp only [Host.Outcome.next.injEq]
      constructor
      · rintro rfl; exact ⟨by omega, by omega, rfl⟩
      · rintro ⟨_, _, rfl⟩; rfl

/-! ### The oracle -/

/-- A pattern is satisfied exactly when each of its bits is 1 in the sample (R72). -/
theorem satisfies_iff (pat w : StatusWord) :
    satisfies pat w = true ↔ ∀ k, pat.getLsbD k = true → w.getLsbD k = true := by
  unfold satisfies
  rw [beq_iff_eq]
  constructor
  · intro h k hk
    have : (w &&& pat).getLsbD k = true := by rw [h]; exact hk
    simp only [BitVec.getLsbD_and, Bool.and_eq_true] at this
    exact this.1
  · intro h
    refine BitVec.eq_of_getLsbD_eq fun k _ => ?_
    rw [BitVec.getLsbD_and]
    cases hp : pat.getLsbD k with
    | false => simp
    | true => simp [h k hp]

/-- BUS_IDLE is the complement of BUS_BUSY (R72). -/
theorem oracleMatch_busIdle (p : Params) (w : StatusWord) :
    oracleMatch p .busIdle w = !oracleMatch p .busBusy w := rfl

/-! ### The polls -/

/-- All a bounded poll step can do (R76). -/
theorem boundedPoll_cases (e : Event) (s : State) :
    (s.tmo = 0#32 ∧ boundedPoll e s = (.expired, s)) ∨
    (s.tmo ≠ 0#32 ∧ oracleMatch s.params e s.statusWord = true ∧ boundedPoll e s = (.satisfied, s.sampled)) ∨
    (s.tmo = 1#32 ∧ oracleMatch s.params e s.statusWord = false ∧
      boundedPoll e s = (.expired, s.sampled.load 0#32)) ∨
    (s.tmo ≠ 0#32 ∧ s.tmo ≠ 1#32 ∧ oracleMatch s.params e s.statusWord = false ∧
      boundedPoll e s = (.pending, s.sampled.load (s.tmo - 1#32))) := by
  unfold boundedPoll
  by_cases h0 : s.tmo = 0#32
  · exact .inl ⟨h0, if_pos h0⟩
  refine .inr ?_
  rw [if_neg h0]
  by_cases hm : oracleMatch s.params e s.statusWord = true
  · exact .inl ⟨h0, hm, if_pos hm⟩
  refine .inr ?_
  rw [if_neg hm]
  rw [Bool.not_eq_true] at hm
  by_cases h1 : s.tmo = 1#32
  · refine .inl ⟨h1, hm, ?_⟩
    rw [h1]; rfl
  · refine .inr ⟨h0, h1, hm, if_neg fun h => h1 ?_⟩
    have := congrArg (· + 1#32) h
    simpa using this

/-- All an unbounded poll step can do (R77). -/
theorem unboundedPoll_cases (e : Event) (s : State) :
    (oracleMatch s.params e s.statusWord = true ∧ unboundedPoll e s = (.satisfied, s.sampled)) ∨
    (oracleMatch s.params e s.statusWord = false ∧ unboundedPoll e s = (.pending, s.sampled)) := by
  unfold unboundedPoll
  by_cases hm : oracleMatch s.params e s.statusWord = true
  · exact .inl ⟨hm, if_pos hm⟩
  · exact .inr ⟨by simpa using hm, if_neg hm⟩

/-- All an unbounded wait can do: one sample, and it moves on exactly when the event is satisfied (R77). -/
theorem waitFor_eq (e : Event) (p : Phase) (s : State) :
    waitFor e p s = if oracleMatch s.params e s.statusWord then s.sampled.goto p else s.sampled := by
  obtain ⟨h, hp⟩ | ⟨h, hp⟩ := unboundedPoll_cases e s <;> simp [waitFor, h, hp]

/-- With a scripted answer, the next status word is its first word. -/
@[simp] theorem State.statusWord_cons {s : State} {w : StatusWord} {rest : List StatusWord}
    (h : s.statusAnswers = w :: rest) : s.statusWord = w := by
  unfold State.statusWord; rw [h]

/-- With a scripted answer, the next data byte is its first byte. -/
@[simp] theorem State.dataByte_cons {s : State} {b : Byte} {rest : List Byte}
    (h : s.dataAnswers = b :: rest) : s.dataByte = b := by
  unfold State.dataByte; rw [h]

/-! ### The block's arithmetic never wraps (R87) -/

/-- TMO - 1, done only when TMO is not 0. -/
theorem counter_pred_toNat {a : Counter} (h : a ≠ 0#32) : (a - 1#32).toNat = a.toNat - 1 := by
  have h0 : a.toNat ≠ 0 := fun h' => h (BitVec.eq_of_toNat_eq (by simpa using h'))
  have := a.isLt
  simp [BitVec.toNat_sub]
  omega

/-- IDX + 1, done only when IDX < LEN. -/
theorem index_succ_toNat {a b : Byte} (h : a.toNat < b.toNat) : (a + 1#8).toNat = a.toNat + 1 := by
  have := b.isLt
  simp
  omega

/-- Taking samples one by one or at once. -/
theorem counter_sub_succ (a : Counter) (n : Nat) : a - 1#32 - BitVec.ofNat 32 n = a - BitVec.ofNat 32 (n + 1) := by
  rw [Nat.add_comm, BitVec.ofNat_add, BitVec.sub_sub]

end Sys2Proof.Machine
end

