-- ==== Sys2Proof/Laws/Phases.lean ====
section
/-! SUPPORT. One specification lemma for each phase rule with a choice: the next state in each case. -/

namespace Sys2Proof.Machine

variable {s : State}

/-! ### The bounded waits -/

theorem busWait_cases (s : State) :
    (s.tmo = 0#32 ∧ busWait s = s.raiseFailure .timeout) ∨
    (s.tmo ≠ 0#32 ∧ oracleMatch s.params .busIdle s.statusWord = true ∧ busWait s = s.sampled.goto .start1) ∨
    (s.tmo = 1#32 ∧ oracleMatch s.params .busIdle s.statusWord = false ∧
      busWait s = (s.sampled.load 0#32).raiseFailure .timeout) ∨
    (s.tmo ≠ 0#32 ∧ s.tmo ≠ 1#32 ∧ oracleMatch s.params .busIdle s.statusWord = false ∧
      busWait s = s.sampled.load (s.tmo - 1#32)) := by
  obtain ⟨_, _⟩ | ⟨_, _, _⟩ | ⟨_, _, _⟩ | ⟨_, _, _, _⟩ := boundedPoll_cases .busIdle s <;> simp [busWait, *]

theorem addrWWait_cases (op : Op) (s : State) :
    (s.tmo = 0#32 ∧
      addrWWait op s = if op = .ping then s.failThroughStop .noAck else s.raiseFailure .noAck) ∨
    (s.tmo ≠ 0#32 ∧ oracleMatch s.params .addrTxSelected s.statusWord = true ∧
      addrWWait op s = if op = .ping then (s.sampled.setResult .ok).goto .stop else s.sampled.goto .regSel) ∨
    (s.tmo = 1#32 ∧ oracleMatch s.params .addrTxSelected s.statusWord = false ∧
      addrWWait op s =
        if op = .ping then (s.sampled.load 0#32).failThroughStop .noAck
        else (s.sampled.load 0#32).raiseFailure .noAck) ∨
    (s.tmo ≠ 0#32 ∧ s.tmo ≠ 1#32 ∧ oracleMatch s.params .addrTxSelected s.statusWord = false ∧
      addrWWait op s = s.sampled.load (s.tmo - 1#32)) := by
  obtain ⟨_, _⟩ | ⟨_, _, _⟩ | ⟨_, _, _⟩ | ⟨_, _, _, _⟩ := boundedPoll_cases .addrTxSelected s <;>
    cases op <;> simp [addrWWait, *]

theorem addrRWait_cases (s : State) :
    (s.tmo = 0#32 ∧ addrRWait s = s.raiseFailure .noAck) ∨
    (s.tmo ≠ 0#32 ∧ oracleMatch s.params .addrRxSelected s.statusWord = true ∧
      addrRWait s = if s.len = 0#8 then (s.sampled.setResult .ok).goto .stop else s.sampled.goto .rxWait) ∨
    (s.tmo = 1#32 ∧ oracleMatch s.params .addrRxSelected s.statusWord = false ∧
      addrRWait s = (s.sampled.load 0#32).raiseFailure .noAck) ∨
    (s.tmo ≠ 0#32 ∧ s.tmo ≠ 1#32 ∧ oracleMatch s.params .addrRxSelected s.statusWord = false ∧
      addrRWait s = s.sampled.load (s.tmo - 1#32)) := by
  obtain ⟨_, _⟩ | ⟨_, _, _⟩ | ⟨_, _, _⟩ | ⟨_, _, _, _⟩ := boundedPoll_cases .addrRxSelected s <;>
    simp [addrRWait, State.lenZero, *]

/-! ### The unbounded waits with a choice -/

theorem regSelWait_cases (op : Op) (s : State) :
    (oracleMatch s.params .txEmpty s.statusWord = false ∧ regSelWait op s = .next s.sampled) ∨
    (oracleMatch s.params .txEmpty s.statusWord = true ∧ op = .ping ∧ regSelWait op s = .fault .noTransition) ∨
    (oracleMatch s.params .txEmpty s.statusWord = true ∧ op = .read ∧
      regSelWait op s = .next (s.sampled.goto (if 1 < s.len.toNat then .ackCfg else .start2))) ∨
    (oracleMatch s.params .txEmpty s.statusWord = true ∧ op = .write ∧
      regSelWait op s = .next (s.sampled.goto (if s.len = 0#8 then .btfWait else .txWait))) := by
  obtain ⟨m, e⟩ | ⟨m, e⟩ := unboundedPoll_cases .txEmpty s <;>
    cases op <;> simp [regSelWait, State.lenZero, State.lenAboveOne, m, e]

theorem btfWait_eq (s : State) :
    btfWait s =
      if oracleMatch s.params .byteTransmitted s.statusWord then (s.sampled.setResult .ok).goto .stop else s.sampled := by
  obtain ⟨m, e⟩ | ⟨m, e⟩ := unboundedPoll_cases .byteTransmitted s <;> simp [btfWait, m, e]

/-! ### The byte transfers -/

/-- RX_TAKE completes exactly where the buffer has a byte at IDX, and this is its next state (R112). -/
theorem rxTake_next_iff (s t : State) :
    rxTake s = .next t ↔ s.idx.toNat < bufferSpace ∧ s.idx.toNat < s.bufferSize ∧
      t = rxAfter s.lastByte (s.dataTaken.stored s.idx.toNat s.dataByte) := by
  unfold rxTake memWrite
  by_cases h1 : bufferSpace ≤ s.idx.toNat
  · simp [h1]
  · by_cases h2 : s.bufferSize ≤ s.idx.toNat
    · simp [h1, h2]
    · simp only [h1, h2, if_false, State.dataTaken_bufferSize, Host.Outcome.next.injEq]
      exact ⟨fun h => ⟨by omega, by omega, h.symm⟩, fun h => h.2.2.symm⟩

/-- TX_PUT completes exactly where the buffer has a byte at IDX, and this is its next state (R128). -/
theorem txPut_next_iff (s t : State) :
    txPut s = .next t ↔ s.idx.toNat < bufferSpace ∧ s.idx.toNat < s.bufferSize ∧
      t = ((s.act (.dataWr (Memory.get s.buffer s.idx.toNat))).advance.goto
        (if s.idx + 1#8 = s.len then .btfWait else .txWait)) := by
  unfold txPut memRead
  by_cases h1 : bufferSpace ≤ s.idx.toNat
  · simp [h1]
  · by_cases h2 : s.bufferSize ≤ s.idx.toNat
    · simp [h1, h2]
    · simp only [h1, h2, if_false, State.lastByte, decide_eq_true_eq, Host.Outcome.next.injEq]
      exact ⟨fun h => ⟨by omega, by omega, h.symm⟩, fun h => h.2.2.symm⟩

end Sys2Proof.Machine
end

