-- ==== Sys2Proof/Laws/Step.lean ====
section
/-! SUPPORT. What `exec` and `step` are in each phase and for each step of the host, so that no proof unfolds the dispatch. -/

namespace Sys2Proof.Machine

/-! ### The operands of the command the latches hold -/

@[simp] theorem State.running_op (s : State) : s.running.op = s.op := by
  unfold State.running; cases s.op <;> rfl

@[simp] theorem State.running_addr (s : State) : s.running.addr = s.addr.toNat := by
  unfold State.running; cases s.op <;> rfl

@[simp] theorem State.running_reg (s : State) : s.running.reg = s.reg.toNat := by
  unfold State.running; cases s.op <;> rfl

@[simp] theorem State.running_len (s : State) : s.running.len = s.len.toNat := by
  unfold State.running; cases s.op <;> rfl

/-- Latching the running command again changes nothing: Accept and the latches agree. -/
theorem State.latch_running (s : State) : s.latch s.running = s := by
  simp [State.latch]

/-! ### `exec` in each phase -/

section
variable (i : Instr) (s : State)

theorem exec_idle (h : s.phase = .idle) : exec i s = .next (s.accept i) := by
  cases i <;> simp [exec, execPing, execRead, execWrite, h]

theorem exec_busWait (h : s.phase = .busWait) : exec i s = .next (busWait s) := by
  cases i <;> simp [exec, execPing, execRead, execWrite, h]

theorem exec_start1 (h : s.phase = .start1) : exec i s = .next (start1 s) := by
  cases i <;> simp [exec, execPing, execRead, execWrite, h]

theorem exec_start1Wait (h : s.phase = .start1Wait) : exec i s = .next (start1Wait s) := by
  cases i <;> simp [exec, execPing, execRead, execWrite, h]

theorem exec_addrW (h : s.phase = .addrW) : exec i s = .next (addrW s) := by
  cases i <;> simp [exec, execPing, execRead, execWrite, h]

theorem exec_addrWWait (h : s.phase = .addrWWait) : exec i s = .next (addrWWait i.op s) := by
  cases i <;> simp [exec, execPing, execRead, execWrite, Instr.op, h]

theorem exec_regSel (h : s.phase = .regSel) : exec i s = .next (regSel s) := by
  cases i <;> simp [exec, execPing, execRead, execWrite, h]

theorem exec_regSelWait (h : s.phase = .regSelWait) : exec i s = regSelWait i.op s := by
  cases i <;> simp [exec, execPing, execRead, execWrite, Instr.op, h]

theorem exec_ackCfg (h : s.phase = .ackCfg) : exec i s = .next (ackCfg s) := by
  cases i <;> simp [exec, execPing, execRead, execWrite, h]

theorem exec_start2 (h : s.phase = .start2) : exec i s = .next (start2 s) := by
  cases i <;> simp [exec, execPing, execRead, execWrite, h]

theorem exec_start2Wait (h : s.phase = .start2Wait) : exec i s = .next (start2Wait s) := by
  cases i <;> simp [exec, execPing, execRead, execWrite, h]

theorem exec_addrR (h : s.phase = .addrR) : exec i s = .next (addrR s) := by
  cases i <;> simp [exec, execPing, execRead, execWrite, h]

theorem exec_addrRWait (h : s.phase = .addrRWait) : exec i s = .next (addrRWait s) := by
  cases i <;> simp [exec, execPing, execRead, execWrite, h]

theorem exec_rxWait (h : s.phase = .rxWait) : exec i s = .next (rxWait s) := by
  cases i <;> simp [exec, execPing, execRead, execWrite, h]

theorem exec_rxTake (h : s.phase = .rxTake) : exec i s = rxTake s := by
  cases i <;> simp [exec, execPing, execRead, execWrite, h]

theorem exec_txWait (h : s.phase = .txWait) : exec i s = .next (txWait s) := by
  cases i <;> simp [exec, execPing, execRead, execWrite, h]

theorem exec_txPut (h : s.phase = .txPut) : exec i s = txPut s := by
  cases i <;> simp [exec, execPing, execRead, execWrite, h]

theorem exec_btfWait (h : s.phase = .btfWait) : exec i s = .next (btfWait s) := by
  cases i <;> simp [exec, execPing, execRead, execWrite, h]

theorem exec_stop (h : s.phase = .stop) : exec i s = .next (stop s) := by
  cases i <;> simp [exec, execPing, execRead, execWrite, h]

end

/-- While an operation runs, `exec` depends on the command only through its operation. -/
theorem exec_eq_of_op {i j : Instr} {s : State} (hop : i.op = j.op) (h : s.phase ≠ .idle) : exec i s = exec j s := by
  cases hp : s.phase with
  | idle => exact absurd hp h
  | busWait => rw [exec_busWait i s hp, exec_busWait j s hp]
  | start1 => rw [exec_start1 i s hp, exec_start1 j s hp]
  | start1Wait => rw [exec_start1Wait i s hp, exec_start1Wait j s hp]
  | addrW => rw [exec_addrW i s hp, exec_addrW j s hp]
  | addrWWait => rw [exec_addrWWait i s hp, exec_addrWWait j s hp, hop]
  | regSel => rw [exec_regSel i s hp, exec_regSel j s hp]
  | regSelWait => rw [exec_regSelWait i s hp, exec_regSelWait j s hp, hop]
  | ackCfg => rw [exec_ackCfg i s hp, exec_ackCfg j s hp]
  | start2 => rw [exec_start2 i s hp, exec_start2 j s hp]
  | start2Wait => rw [exec_start2Wait i s hp, exec_start2Wait j s hp]
  | addrR => rw [exec_addrR i s hp, exec_addrR j s hp]
  | addrRWait => rw [exec_addrRWait i s hp, exec_addrRWait j s hp]
  | rxWait => rw [exec_rxWait i s hp, exec_rxWait j s hp]
  | rxTake => rw [exec_rxTake i s hp, exec_rxTake j s hp]
  | txWait => rw [exec_txWait i s hp, exec_txWait j s hp]
  | txPut => rw [exec_txPut i s hp, exec_txPut j s hp]
  | btfWait => rw [exec_btfWait i s hp, exec_btfWait j s hp]
  | stop => rw [exec_stop i s hp, exec_stop j s hp]

/-! ### The sequencer's step and the host's -/

theorem sequencerStep_idle {s : State} (h : s.phase = .idle) : sequencerStep s = .next s := by
  simp [sequencerStep, h]

theorem sequencerStep_busy {s : State} (h : s.phase ≠ .idle) : sequencerStep s = exec s.running s := by
  unfold sequencerStep; split
  · exact absurd ‹_› h
  · rfl

theorem step_silent {s : State} (h : s.script = []) : step s = sequencerStep s := by
  simp [step, agentStep, h]

theorem step_host {s : State} {h : HostStep} {rest : List HostStep} (hs : s.script = h :: rest) :
    step s = hostStep h { s with script := rest } := by
  simp [step, agentStep, hs]

/-- A silent host and a running operation: the machine's step is the command's. -/
theorem step_running {s : State} (h : s.script = []) (hb : s.phase ≠ .idle) : step s = exec s.running s := by
  rw [step_silent h, sequencerStep_busy hb]

theorem offer_accepted {s : State} {w : CommandWord} {i : Instr} (h : s.phase = .idle) (hd : decode w = .ok i) :
    offer w s = exec i (s.note (.offered w true)) := by
  simp [offer, State.cmdReady, h, hd]

theorem offer_busy {s : State} (w : CommandWord) (h : s.phase ≠ .idle) :
    offer w s = .next (s.note (.offered w false)) := by
  simp [offer, State.cmdReady, h]

theorem offer_illegal {s : State} {w : CommandWord} {r : Reject} (hd : decode w = .error r) :
    offer w s = .next (s.note (.offered w false)) := by
  by_cases h : s.phase = .idle
  · simp [offer, State.cmdReady, h, hd]
  · exact offer_busy w h

end Sys2Proof.Machine
end

