-- ==== Sys2Proof/Laws/Inversion.lean ====
section
/-! SUPPORT. The inversion lemma of the sequencer: all that a step of a running command can do, said once. -/

namespace Sys2Proof.Machine

theorem boundedWait_iff (p : Phase) : boundedWait p = true ↔ p = .busWait ∨ p = .addrWWait ∨ p = .addrRWait := by
  cases p <;> simp [boundedWait]

theorem unboundedWait_iff (p : Phase) :
    unboundedWait p = true ↔
      p = .start1Wait ∨ p = .regSelWait ∨ p = .start2Wait ∨ p = .rxWait ∨ p = .txWait ∨ p = .btfWait := by
  cases p <;> simp [unboundedWait]

/-- No wait is of both kinds. -/
theorem boundedWait_of_unbounded {p : Phase} (h : unboundedWait p = true) : boundedWait p = false := by
  cases p <;> first | rfl | cases h

/-- All a running command's step can do: one constructor for each row of the transition table (R88), with what the row tests and the state it leaves. -/
inductive PhaseStep (op : Op) (s : State) : State → Prop
  | busWait_spent :
    s.phase = .busWait → s.tmo = 0#32 →
    PhaseStep op s (s.raiseFailure .timeout)
  | busWait_satisfied :
    s.phase = .busWait → s.tmo ≠ 0#32 → oracleMatch s.params .busIdle s.statusWord = true →
    PhaseStep op s (s.sampled.goto .start1)
  | busWait_expired :
    s.phase = .busWait → s.tmo = 1#32 → oracleMatch s.params .busIdle s.statusWord = false →
    PhaseStep op s ((s.sampled.load 0#32).raiseFailure .timeout)
  | bounded_pending (e : Event) :
    boundedWait s.phase = true → awaited s.phase = some e → s.tmo ≠ 0#32 → s.tmo ≠ 1#32 →
    oracleMatch s.params e s.statusWord = false →
    PhaseStep op s (s.sampled.load (s.tmo - 1#32))
  | start1 :
    s.phase = .start1 →
    PhaseStep op s (start1 s)
  | unbounded_pending (e : Event) :
    unboundedWait s.phase = true → awaited s.phase = some e → oracleMatch s.params e s.statusWord = false →
    PhaseStep op s s.sampled
  | start1Wait_satisfied :
    s.phase = .start1Wait → oracleMatch s.params .startSelected s.statusWord = true →
    PhaseStep op s (s.sampled.goto .addrW)
  | addrW :
    s.phase = .addrW →
    PhaseStep op s (addrW s)
  | addrWWait_spent_ping :
    s.phase = .addrWWait → s.tmo = 0#32 → op = .ping →
    PhaseStep op s (s.failThroughStop .noAck)
  | addrWWait_spent :
    s.phase = .addrWWait → s.tmo = 0#32 → op ≠ .ping →
    PhaseStep op s (s.raiseFailure .noAck)
  | addrWWait_satisfied_ping :
    s.phase = .addrWWait → s.tmo ≠ 0#32 → op = .ping → oracleMatch s.params .addrTxSelected s.statusWord = true →
    PhaseStep op s ((s.sampled.setResult .ok).goto .stop)
  | addrWWait_satisfied :
    s.phase = .addrWWait → s.tmo ≠ 0#32 → op ≠ .ping → oracleMatch s.params .addrTxSelected s.statusWord = true →
    PhaseStep op s (s.sampled.goto .regSel)
  | addrWWait_expired_ping :
    s.phase = .addrWWait → s.tmo = 1#32 → op = .ping → oracleMatch s.params .addrTxSelected s.statusWord = false →
    PhaseStep op s ((s.sampled.load 0#32).failThroughStop .noAck)
  | addrWWait_expired :
    s.phase = .addrWWait → s.tmo = 1#32 → op ≠ .ping → oracleMatch s.params .addrTxSelected s.statusWord = false →
    PhaseStep op s ((s.sampled.load 0#32).raiseFailure .noAck)
  | regSel :
    s.phase = .regSel →
    PhaseStep op s (regSel s)
  | regSelWait_read :
    s.phase = .regSelWait → op = .read → oracleMatch s.params .txEmpty s.statusWord = true →
    PhaseStep op s (s.sampled.goto (if 1 < s.len.toNat then .ackCfg else .start2))
  | regSelWait_write :
    s.phase = .regSelWait → op = .write → oracleMatch s.params .txEmpty s.statusWord = true →
    PhaseStep op s (s.sampled.goto (if s.len = 0#8 then .btfWait else .txWait))
  | ackCfg :
    s.phase = .ackCfg →
    PhaseStep op s (ackCfg s)
  | start2 :
    s.phase = .start2 →
    PhaseStep op s (start2 s)
  | start2Wait_satisfied :
    s.phase = .start2Wait → oracleMatch s.params .startSelected s.statusWord = true →
    PhaseStep op s (s.sampled.goto .addrR)
  | addrR :
    s.phase = .addrR →
    PhaseStep op s (addrR s)
  | addrRWait_spent :
    s.phase = .addrRWait → s.tmo = 0#32 →
    PhaseStep op s (s.raiseFailure .noAck)
  | addrRWait_satisfied_empty :
    s.phase = .addrRWait → s.tmo ≠ 0#32 → s.len = 0#8 → oracleMatch s.params .addrRxSelected s.statusWord = true →
    PhaseStep op s ((s.sampled.setResult .ok).goto .stop)
  | addrRWait_satisfied :
    s.phase = .addrRWait → s.tmo ≠ 0#32 → s.len ≠ 0#8 → oracleMatch s.params .addrRxSelected s.statusWord = true →
    PhaseStep op s (s.sampled.goto .rxWait)
  | addrRWait_expired :
    s.phase = .addrRWait → s.tmo = 1#32 → oracleMatch s.params .addrRxSelected s.statusWord = false →
    PhaseStep op s ((s.sampled.load 0#32).raiseFailure .noAck)
  | rxWait_satisfied :
    s.phase = .rxWait → oracleMatch s.params .rxNotEmpty s.statusWord = true →
    PhaseStep op s (s.sampled.goto .rxTake)
  | rxTake_last :
    s.phase = .rxTake → s.idx.toNat < 255 → s.idx.toNat < s.bufferSize → s.idx + 1#8 = s.len →
    PhaseStep op s ((((s.dataTaken.stored s.idx.toNat s.dataByte).advance).setResult .ok).goto .stop)
  | rxTake_more :
    s.phase = .rxTake → s.idx.toNat < 255 → s.idx.toNat < s.bufferSize → s.idx + 1#8 ≠ s.len →
    PhaseStep op s (((s.dataTaken.stored s.idx.toNat s.dataByte).advance).goto .rxWait)
  | txWait_satisfied :
    s.phase = .txWait → oracleMatch s.params .txEmpty s.statusWord = true →
    PhaseStep op s (s.sampled.goto .txPut)
  | txPut :
    s.phase = .txPut → s.idx.toNat < 255 → s.idx.toNat < s.bufferSize →
    PhaseStep op s ((s.act (.dataWr (Memory.get s.buffer s.idx.toNat))).advance.goto (if s.idx + 1#8 = s.len then .btfWait else .txWait))
  | btfWait_satisfied :
    s.phase = .btfWait → oracleMatch s.params .byteTransmitted s.statusWord = true →
    PhaseStep op s ((s.sampled.setResult .ok).goto .stop)
  | stop :
    s.phase = .stop →
    PhaseStep op s (stop s)

/-- Inversion of `exec` outside IDLE: a next state is that of one row of the table. -/
theorem exec_inversion {i : Instr} {s t : State} (h : exec i s = .next t) (hb : s.phase ≠ .idle) : PhaseStep i.op s t := by
  cases hp : s.phase with
  | idle => exact absurd hp hb
  | busWait =>
    rw [exec_busWait _ _ hp] at h; injection h with h; subst h
    obtain ⟨h, e⟩ | ⟨h, m, e⟩ | ⟨h, m, e⟩ | ⟨h, h', m, e⟩ := busWait_cases s <;> rw [e]
    · exact .busWait_spent hp h
    · exact .busWait_satisfied hp h m
    · exact .busWait_expired hp h m
    · exact .bounded_pending _ (by rw [hp]; rfl) (by rw [hp]; rfl) h h' m
  | start1 => rw [exec_start1 _ _ hp] at h; injection h with h; subst h; exact .start1 hp
  | start1Wait =>
    rw [exec_start1Wait _ _ hp] at h; injection h with h; subst h; unfold start1Wait; rw [waitFor_eq]
    split
    · exact .start1Wait_satisfied hp ‹_›
    · exact .unbounded_pending _ (by rw [hp]; rfl) (by rw [hp]; rfl) (Bool.eq_false_of_not_eq_true ‹_›)
  | addrW => rw [exec_addrW _ _ hp] at h; injection h with h; subst h; exact .addrW hp
  | addrWWait =>
    rw [exec_addrWWait _ _ hp] at h; injection h with h; subst h
    obtain ⟨h, e⟩ | ⟨h, m, e⟩ | ⟨h, m, e⟩ | ⟨h, h', m, e⟩ := addrWWait_cases i.op s <;> rw [e]
    · split
      · exact .addrWWait_spent_ping hp h ‹_›
      · exact .addrWWait_spent hp h ‹_›
    · split
      · exact .addrWWait_satisfied_ping hp h ‹_› m
      · exact .addrWWait_satisfied hp h ‹_› m
    · split
      · exact .addrWWait_expired_ping hp h ‹_› m
      · exact .addrWWait_expired hp h ‹_› m
    · exact .bounded_pending _ (by rw [hp]; rfl) (by rw [hp]; rfl) h h' m
  | regSel => rw [exec_regSel _ _ hp] at h; injection h with h; subst h; exact .regSel hp
  | regSelWait =>
    rw [exec_regSelWait _ _ hp] at h
    obtain ⟨m, e⟩ | ⟨m, o, e⟩ | ⟨m, o, e⟩ | ⟨m, o, e⟩ := regSelWait_cases i.op s <;> rw [e] at h
    · injection h with h; subst h; exact .unbounded_pending _ (by rw [hp]; rfl) (by rw [hp]; rfl) m
    · cases h
    · injection h with h; subst h; exact .regSelWait_read hp o m
    · injection h with h; subst h; exact .regSelWait_write hp o m
  | ackCfg => rw [exec_ackCfg _ _ hp] at h; injection h with h; subst h; exact .ackCfg hp
  | start2 => rw [exec_start2 _ _ hp] at h; injection h with h; subst h; exact .start2 hp
  | start2Wait =>
    rw [exec_start2Wait _ _ hp] at h; injection h with h; subst h; unfold start2Wait; rw [waitFor_eq]
    split
    · exact .start2Wait_satisfied hp ‹_›
    · exact .unbounded_pending _ (by rw [hp]; rfl) (by rw [hp]; rfl) (Bool.eq_false_of_not_eq_true ‹_›)
  | addrR => rw [exec_addrR _ _ hp] at h; injection h with h; subst h; exact .addrR hp
  | addrRWait =>
    rw [exec_addrRWait _ _ hp] at h; injection h with h; subst h
    obtain ⟨h, e⟩ | ⟨h, m, e⟩ | ⟨h, m, e⟩ | ⟨h, h', m, e⟩ := addrRWait_cases s <;> rw [e]
    · exact .addrRWait_spent hp h
    · split
      · exact .addrRWait_satisfied_empty hp h ‹_› m
      · exact .addrRWait_satisfied hp h ‹_› m
    · exact .addrRWait_expired hp h m
    · exact .bounded_pending _ (by rw [hp]; rfl) (by rw [hp]; rfl) h h' m
  | rxWait =>
    rw [exec_rxWait _ _ hp] at h; injection h with h; subst h; unfold rxWait; rw [waitFor_eq]
    split
    · exact .rxWait_satisfied hp ‹_›
    · exact .unbounded_pending _ (by rw [hp]; rfl) (by rw [hp]; rfl) (Bool.eq_false_of_not_eq_true ‹_›)
  | rxTake =>
    rw [exec_rxTake _ _ hp, rxTake_next_iff] at h
    obtain ⟨h1, h2, rfl⟩ := h
    unfold rxAfter State.lastByte; simp only [decide_eq_true_eq]
    split
    · exact .rxTake_last hp h1 h2 ‹_›
    · exact .rxTake_more hp h1 h2 ‹_›
  | txWait =>
    rw [exec_txWait _ _ hp] at h; injection h with h; subst h; unfold txWait; rw [waitFor_eq]
    split
    · exact .txWait_satisfied hp ‹_›
    · exact .unbounded_pending _ (by rw [hp]; rfl) (by rw [hp]; rfl) (Bool.eq_false_of_not_eq_true ‹_›)
  | txPut =>
    rw [exec_txPut _ _ hp, txPut_next_iff] at h
    obtain ⟨h1, h2, rfl⟩ := h
    exact .txPut hp h1 h2
  | btfWait =>
    rw [exec_btfWait _ _ hp, btfWait_eq] at h; injection h with h; subst h
    split
    · exact .btfWait_satisfied hp ‹_›
    · exact .unbounded_pending _ (by rw [hp]; rfl) (by rw [hp]; rfl) (Bool.eq_false_of_not_eq_true ‹_›)
  | stop => rw [exec_stop _ _ hp] at h; injection h with h; subst h; exact .stop hp

/-- Inversion of a silent host's step outside IDLE. -/
theorem step_inversion {s t : State} (h : step s = .next t) (hs : s.script = []) (hb : s.phase ≠ .idle) : PhaseStep s.op s t := by
  rw [step_running hs hb] at h
  have := exec_inversion h hb
  rwa [State.running_op] at this

/-! ### The host's steps -/

/-- All a step of the host other than `run` can do. -/
inductive HostEffect (s : State) : HostStep → State → Prop
  | accepted (w : CommandWord) (i : Instr) :
    s.phase = .idle → decode w = .ok i →
    HostEffect s (.offer w) ((s.note (.offered w true)).accept i)
  | notAccepted (w : CommandWord) :
    s.phase ≠ .idle ∨ (∃ r, decode w = .error r) →
    HostEffect s (.offer w) (s.note (.offered w false))
  | readStatus : HostEffect s .readStatus (s.note (.status s.statusPort))
  | bufWrite (i v : Byte) : i.toNat < 255 → HostEffect s (.bufWrite i v) (s.stored i.toNat v)
  | bufRead (i : Byte) : i.toNat < 255 → HostEffect s (.bufRead i) (s.note (.byte i (Memory.get s.buffer i.toNat)))
  | bufSize (n : Nat) : HostEffect s (.bufSize n) (s.provide n)
  | reset : HostEffect s .reset s.resetInput

/-- Inversion of the host's steps. -/
theorem hostStep_inversion {h : HostStep} {s t : State} (hn : hostStep h s = .next t) (hr : h ≠ .run) :
    HostEffect s h t := by
  cases h with
  | run => exact absurd rfl hr
  | offer w =>
    simp only [hostStep] at hn
    by_cases hi : s.phase = .idle
    · cases hd : decode w with
      | ok i =>
        rw [offer_accepted hi hd, exec_idle i (s.note _) hi] at hn
        injection hn with hn
        subst hn
        exact .accepted w i hi hd
      | error r =>
        rw [offer_illegal hd] at hn
        injection hn with hn
        subst hn
        exact .notAccepted w (.inr ⟨r, hd⟩)
    · rw [offer_busy w hi] at hn
      injection hn with hn
      subst hn
      exact .notAccepted w (.inl hi)
  | readStatus =>
    injection hn with hn
    subst hn
    exact .readStatus
  | bufWrite i v =>
    simp only [hostStep, hostBufWrite] at hn
    split at hn
    · cases hn
    · injection hn with hn
      subst hn
      exact .bufWrite i v (Nat.lt_of_not_le ‹_›)
  | bufRead i =>
    simp only [hostStep, hostBufRead] at hn
    split at hn
    · cases hn
    · injection hn with hn
      subst hn
      exact .bufRead i (Nat.lt_of_not_le ‹_›)
  | bufSize n =>
    injection hn with hn
    subst hn
    exact .bufSize n
  | reset =>
    injection hn with hn
    subst hn
    exact .reset

end Sys2Proof.Machine
end

