-- ==== Sys2Proof/Laws/Run.lean ====
section
/-! SUPPORT. Runs of many steps: a silent host's step in the waits and the byte transfers, taking one step first, composing runs, and the trace of a run's samples. -/

namespace Sys2Proof.Machine

/-! ### One step of a silent host -/

/-- An unsatisfied sample of a bounded wait that is not the last one (R76). -/
theorem step_bounded_pending {s : State} {e : Event} (hs : s.script = []) (hb : boundedWait s.phase = true)
    (ha : awaited s.phase = some e) (h0 : s.tmo ≠ 0#32) (h1 : s.tmo ≠ 1#32)
    (hm : oracleMatch s.params e s.statusWord = false) : step s = .next (s.sampled.load (s.tmo - 1#32)) := by
  rw [boundedWait_iff] at hb
  obtain hp | hp | hp := hb
  all_goals
    rw [step_running hs (by rw [hp]; intro h; cases h)]
    rw [hp] at ha
    injection ha with ha
    subst ha
  · rw [exec_busWait _ _ hp]
    have := busWait_cases s
    simp_all
  · rw [exec_addrWWait _ _ hp]
    have := addrWWait_cases s.running.op s
    simp_all
  · rw [exec_addrRWait _ _ hp]
    have := addrRWait_cases s
    simp_all

/-- An unsatisfied sample of an unbounded wait (R77). -/
theorem step_unbounded_pending {s : State} {e : Event} (hs : s.script = []) (hb : unboundedWait s.phase = true)
    (ha : awaited s.phase = some e) (hm : oracleMatch s.params e s.statusWord = false) : step s = .next s.sampled := by
  rw [unboundedWait_iff] at hb
  obtain hp | hp | hp | hp | hp | hp := hb
  all_goals
    rw [step_running hs (by rw [hp]; intro h; cases h)]
    rw [hp] at ha
    injection ha with ha
    subst ha
  · rw [exec_start1Wait _ _ hp, start1Wait, waitFor_eq]
    simp [hm]
  · rw [exec_regSelWait _ _ hp]
    have := regSelWait_cases s.running.op s
    simp_all
  · rw [exec_start2Wait _ _ hp, start2Wait, waitFor_eq]
    simp [hm]
  · rw [exec_rxWait _ _ hp, rxWait, waitFor_eq]
    simp [hm]
  · rw [exec_txWait _ _ hp, txWait, waitFor_eq]
    simp [hm]
  · rw [exec_btfWait _ _ hp, btfWait_eq]
    simp [hm]

/-- RX_TAKE where the buffer has a byte at IDX (R112). -/
theorem step_rxTake {s : State} (hs : s.script = []) (hp : s.phase = .rxTake) (h1 : s.idx.toNat < bufferSpace)
    (h2 : s.idx.toNat < s.bufferSize) :
    step s = .next (rxAfter s.lastByte (s.dataTaken.stored s.idx.toNat s.dataByte)) := by
  rw [step_running hs (by rw [hp]; intro h; cases h), exec_rxTake _ _ hp]
  exact (rxTake_next_iff _ _).2 ⟨h1, h2, rfl⟩

/-- TX_PUT where the buffer has a byte at IDX (R128). -/
theorem step_txPut {s : State} (hs : s.script = []) (hp : s.phase = .txPut) (h1 : s.idx.toNat < bufferSpace)
    (h2 : s.idx.toNat < s.bufferSize) :
    step s = .next ((s.act (.dataWr (Memory.get s.buffer s.idx.toNat))).advance.goto
      (if s.idx + 1#8 = s.len then .btfWait else .txWait)) := by
  rw [step_running hs (by rw [hp]; intro h; cases h), exec_txPut _ _ hp]
  exact (txPut_next_iff _ _).2 ⟨h1, h2, rfl⟩

/-- Accept of an encoded command by an idle block (R75), where the decoder reads it back. -/
theorem step_offer {s : State} {w : CommandWord} {i : Instr} {rest : List HostStep} (hs : s.script = .offer w :: rest)
    (hp : s.phase = .idle) (hd : decode w = .ok i) :
    step s = .next ((({ s with script := rest } : State).note (.offered w true)).accept i) := by
  rw [step_host hs]
  show offer w { s with script := rest } = _
  rw [offer_accepted (s := { s with script := rest }) hp hd]
  exact exec_idle i (({ s with script := rest } : State).note (.offered w true)) hp

/-! ### The trace of samples -/

@[simp] theorem samplesOf_nil : samplesOf [] = [] := rfl

theorem samplesOf_snoc (l : List StatusWord) (w : StatusWord) (older : List Action) :
    samplesOf (l ++ [w]) ++ older = .statusRd w :: (samplesOf l ++ older) := by simp [samplesOf]

@[simp] theorem busHeld_samplesOf (l : List StatusWord) (older : List Action) :
    busHeld (samplesOf l ++ older) = busHeld older := by
  induction l generalizing older with
  | nil => rfl
  | cons w l ih =>
    simp only [samplesOf, List.map_cons, List.reverse_cons, List.append_assoc] at ih ⊢
    rw [ih]
    rfl

@[simp] theorem bytesSent_samplesOf (l : List StatusWord) (older : List Action) :
    bytesSent (samplesOf l ++ older) = bytesSent older := by
  induction l generalizing older with
  | nil => rfl
  | cons w l ih =>
    simp only [samplesOf, List.map_cons, List.reverse_cons, List.append_assoc] at ih ⊢
    rw [ih]
    rfl

/-! ### Runs -/

@[simp] theorem run_zero (s : State) : run 0 s = .next s := rfl

/-- One step first. -/
theorem run_succ_of_step {k : Nat} {s t : State} (h : step s = .next t) : run (k + 1) s = run k t := by
  simp only [run, h]

/-- One step is a run. -/
theorem run_one_of_step {s t : State} (h : step s = .next t) : run 1 s = .next t := run_succ_of_step h

/-- The run of the model is the run of the host's interface. -/
theorem run_eq_core_run (k : Nat) (s : State) : run k s = Host.Core.run Sys2Proof.core k s := by
  induction k generalizing s with
  | zero => rfl
  | succ k ih =>
    have e := Host.Core.run.eq_2 Sys2Proof.core s k
    cases hs : step s with
    | next t =>
      rw [show Host.Core.step Sys2Proof.core s = .next t from hs] at e
      exact (run_succ_of_step hs).trans ((ih t).trans e.symm)
    | fault f =>
      rw [show Host.Core.step Sys2Proof.core s = .fault f from hs] at e
      simp only [run, hs]
      exact e.symm
    | refused r =>
      rw [show Host.Core.step Sys2Proof.core s = .refused r from hs] at e
      simp only [run, hs]
      exact e.symm

/-- A run of `j` steps first. -/
theorem run_add_of_run {j k : Nat} {s t : State} (h : run j s = .next t) : run (j + k) s = run k t := by
  induction j generalizing s with
  | zero =>
    rw [run_zero] at h
    injection h with h
    rw [h, Nat.zero_add]
  | succ j ih =>
    rw [Nat.add_right_comm]
    cases hs : step s with
    | next u =>
      rw [run_succ_of_step hs] at h ⊢
      exact ih h
    | fault f => simp only [run, hs] at h; cases h
    | refused r => simp only [run, hs] at h; cases h

end Sys2Proof.Machine
end

