-- ==== Sys2Proof/Laws/Call.lean ====
section
/-! SUPPORT. The laws of the host's programs: what a silent host's step leaves of its script and its log, and waiting and offering as runs of the machine. -/

namespace Sys2Proof.Machine

/-! ### A silent host -/

/-- A silent host stays silent and sees nothing, and the instance stays the same. -/
theorem step_silent_host {s t : State} (hs : s.script = []) (h : step s = .next t) :
    t.script = [] ∧ t.hostLog = s.hostLog ∧ t.params = s.params := by
  by_cases hp : s.phase = .idle
  · rw [step_silent hs, sequencerStep_idle hp] at h
    injection h with h
    subst h
    exact ⟨hs, rfl, rfl⟩
  · cases step_inversion h hs hp <;> exact ⟨hs, rfl, rfl⟩

/-- An operation that has returned is in IDLE with DONE = 1, and returns RESULT. -/
theorem State.returned_eq_some {s : State} {r : Result} :
    s.returned = some r ↔ s.phase = .idle ∧ s.done = true ∧ s.result = r := by
  simp [State.returned, State.busy, and_assoc]

/-- Once an operation has returned, a silent host's machine stays as it is. -/
theorem step_of_returned {s : State} {r : Result} (hs : s.script = []) (h : s.returned = some r) : step s = .next s := by
  rw [step_silent hs, sequencerStep_idle (State.returned_eq_some.1 h).1]

/-- So does a run. -/
theorem run_of_returned {s : State} {r : Result} (hs : s.script = []) (h : s.returned = some r) (k : Nat) :
    run k s = .next s := by
  induction k with
  | zero => rfl
  | succ k ih => rw [run_succ_of_step (step_of_returned hs h), ih]

/-! ### Waiting -/

/-- What is seen at once ends the wait at once. -/
theorem waitUntil_of_seen {α : Type} {seen : State → Option α} {s : State} {a : α} (h : seen s = some a) (patience : Nat) :
    waitUntil seen patience s = .finished a s := by
  cases patience <;> simp [waitUntil, h]

/-- What is not seen costs one step. -/
theorem waitUntil_of_step {α : Type} {seen : State → Option α} {s t : State} (h : seen s = none) (ht : step s = .next t)
    (patience : Nat) : waitUntil seen (patience + 1) s = waitUntil seen patience t := by
  simp [waitUntil, h, ht]

/-- The wait for DONE, where the operation returns within the patience: it ends with the RESULT in that very state. -/
theorem waitUntil_returned_of_run {k : Nat} {s t : State} {r : Result} (hs : s.script = []) (h : run k s = .next t)
    (hr : t.returned = some r) {patience : Nat} (hk : k ≤ patience) :
    waitUntil State.returned patience s = .finished r t := by
  induction k generalizing s patience with
  | zero =>
    rw [run_zero] at h
    injection h with h
    subst h
    exact waitUntil_of_seen hr patience
  | succ k ih =>
    cases hn : s.returned with
    | some r' =>
      rw [run_of_returned hs hn] at h
      injection h with h
      subst h
      exact waitUntil_of_seen hr patience
    | none =>
      cases hq : step s with
      | next u =>
        rw [run_succ_of_step hq] at h
        obtain ⟨p, rfl⟩ : ∃ p, patience = p + 1 := ⟨patience - 1, by omega⟩
        rw [waitUntil_of_step hn hq]
        exact ih (step_silent_host hs hq).1 h (by omega)
      | fault f => simp [run, hq] at h
      | refused f => simp [run, hq] at h

/-- The wait for DONE, where the operation has not returned after as many steps as the patience allows. -/
theorem waitUntil_returned_of_pending {patience : Nat} {s t : State} (hs : s.script = []) (h : run patience s = .next t)
    (hr : t.returned = none) : waitUntil State.returned patience s = .waiting t := by
  induction patience generalizing s with
  | zero =>
    rw [run_zero] at h
    injection h with h
    subst h
    simp [waitUntil, hr]
  | succ k ih =>
    cases hn : s.returned with
    | some r' =>
      rw [run_of_returned hs hn] at h
      injection h with h
      subst h
      rw [hn] at hr
      cases hr
    | none =>
      cases hq : step s with
      | next u =>
        rw [run_succ_of_step hq] at h
        rw [waitUntil_of_step hn hq]
        exact ih (step_silent_host hs hq).1 h
      | fault f => simp [run, hq] at h
      | refused f => simp [run, hq] at h

/-- A finished wait saw what it returns, and a host that was silent still is and has seen nothing else. -/
theorem waitUntil_finished {α : Type} {seen : State → Option α} {patience : Nat} {s t : State} {a : α} (hs : s.script = [])
    (h : waitUntil seen patience s = .finished a t) :
    seen t = some a ∧ t.script = [] ∧ t.hostLog = s.hostLog ∧ t.params = s.params := by
  induction patience generalizing s with
  | zero =>
    cases hn : seen s with
    | some b =>
      rw [waitUntil_of_seen hn] at h
      injection h with h1 h2
      subst h1 h2
      exact ⟨hn, hs, rfl, rfl⟩
    | none => simp [waitUntil, hn] at h
  | succ k ih =>
    cases hn : seen s with
    | some b =>
      rw [waitUntil_of_seen hn] at h
      injection h with h1 h2
      subst h1 h2
      exact ⟨hn, hs, rfl, rfl⟩
    | none =>
      cases hq : step s with
      | next u =>
        rw [waitUntil_of_step hn hq] at h
        obtain ⟨h1, h2, h3⟩ := step_silent_host hs hq
        obtain ⟨h4, h5, h6, h7⟩ := ih h1 h
        exact ⟨h4, h5, h6.trans h2, h7.trans h3⟩
      | fault f => simp [waitUntil, hn, hq] at h
      | refused f => simp [waitUntil, hn, hq] at h

/-! ### Calling -/

/-- An idle block is ready. -/
theorem State.ready_of_idle {s : State} (h : s.phase = .idle) : s.ready = some () := by
  simp [State.ready, State.cmdReady, h]

/-- An idle block takes the offer of a command the decoder reads back. -/
theorem offerCommand_of_idle {i : Instr} {s t : State} (hp : s.phase = .idle) (hd : decode (encode i) = .ok i)
    (h : step { s with script := .offer (encode i) :: s.script } = .next t) : offerCommand i s = .finished () t := by
  have e := step_offer (s := { s with script := .offer (encode i) :: s.script }) rfl hp hd
  rw [e] at h
  injection h with h
  subst h
  simp [offerCommand, e, State.busy]

/-- A call on an idle block: Accept, then the wait for DONE. -/
theorem call_of_idle {i : Instr} {s t : State} (hp : s.phase = .idle) (hd : decode (encode i) = .ok i)
    (h : step { s with script := .offer (encode i) :: s.script } = .next t) (patience : Nat) :
    call patience i s = waitUntil State.returned patience t := by
  simp [call, waitUntil_of_seen (State.ready_of_idle hp), HostRun.andThen, offerCommand_of_idle hp hd h]

/-! ### Scanning -/

@[simp] theorem scanCommand_eq (c : Nat) : scanCommand c = .ping c 0 0 := rfl

/-- One candidate first, where its call returns. -/
theorem scanResults_cons {patience c : Nat} {cs : List Nat} {s t u : State} {r : Result} {rs : List (Nat × Result)}
    (h : call patience (scanCommand c) s = .finished r t) (hs : scanResults patience cs t = .finished rs u) :
    scanResults patience (c :: cs) s = .finished ((c, r) :: rs) u := by
  simp only [scanResults, h, hs, HostRun.andThen]

/-- The report keeps the candidates whose result is OK, in their order. -/
theorem scanReport_map (result : Nat → Result) (cs : List Nat) :
    scanReport (cs.map fun c => (c, result c)) = cs.filter fun c => result c == .ok := by
  simp only [scanReport, List.filter_map, List.map_map]
  exact List.map_id _

end Sys2Proof.Machine
end

