-- ==== Sys2Proof/Laws/Maps.lean ====
section
/-! SUPPORT. Moving the ports and the peripheral's registers to other addresses (`State.withMaps`, spec/20_memory.md R48): what it leaves in each field, and that it passes through the oracle, both polls and the buffer read. -/

namespace Sys2Proof.Machine

section
variable (h : HostMap) (p : PeriphMap) (s : State)

namespace State

@[simp] theorem withMaps_op : (s.withMaps h p).op = s.op := rfl
@[simp] theorem withMaps_addr : (s.withMaps h p).addr = s.addr := rfl
@[simp] theorem withMaps_reg : (s.withMaps h p).reg = s.reg := rfl
@[simp] theorem withMaps_len : (s.withMaps h p).len = s.len := rfl
@[simp] theorem withMaps_idx : (s.withMaps h p).idx = s.idx := rfl
@[simp] theorem withMaps_tmo : (s.withMaps h p).tmo = s.tmo := rfl
@[simp] theorem withMaps_phase : (s.withMaps h p).phase = s.phase := rfl
@[simp] theorem withMaps_result : (s.withMaps h p).result = s.result := rfl
@[simp] theorem withMaps_done : (s.withMaps h p).done = s.done := rfl
@[simp] theorem withMaps_tIdle : (s.withMaps h p).params.tIdle = s.params.tIdle := rfl
@[simp] theorem withMaps_tAddr : (s.withMaps h p).params.tAddr = s.params.tAddr := rfl
@[simp] theorem withMaps_buffer : (s.withMaps h p).buffer = s.buffer := rfl
@[simp] theorem withMaps_bufferSize : (s.withMaps h p).bufferSize = s.bufferSize := rfl
@[simp] theorem withMaps_script : (s.withMaps h p).script = s.script := rfl
@[simp] theorem withMaps_hostLog : (s.withMaps h p).hostLog = s.hostLog := rfl
@[simp] theorem withMaps_statusAnswers : (s.withMaps h p).statusAnswers = s.statusAnswers := rfl
@[simp] theorem withMaps_dataAnswers : (s.withMaps h p).dataAnswers = s.dataAnswers := rfl
@[simp] theorem withMaps_fresh : (s.withMaps h p).fresh = s.fresh := rfl
@[simp] theorem withMaps_trace : (s.withMaps h p).trace = s.trace := rfl
@[simp] theorem withMaps_statusWord : (s.withMaps h p).statusWord = s.statusWord := rfl
@[simp] theorem withMaps_dataByte : (s.withMaps h p).dataByte = s.dataByte := rfl
@[simp] theorem withMaps_running : (s.withMaps h p).running = s.running := rfl

end State

/-- The oracle reads no address. -/
@[simp] theorem oracleMatch_withMaps (e : Event) (w : StatusWord) :
    oracleMatch (s.withMaps h p).params e w = oracleMatch s.params e w := by cases e <;> rfl

theorem boundedPoll_withMaps (e : Event) :
    boundedPoll e (s.withMaps h p) = ((boundedPoll e s).1, (boundedPoll e s).2.withMaps h p) := by
  unfold boundedPoll
  simp only [State.withMaps_tmo, State.withMaps_statusWord, oracleMatch_withMaps]
  by_cases h0 : s.tmo = 0#32
  · simp only [h0, if_true]
  · cases hm : oracleMatch s.params e s.statusWord
    · by_cases h1 : s.tmo - 1#32 = 0#32 <;> simp only [h0, h1, if_true, if_false, Bool.false_eq_true] <;> rfl
    · simp only [h0, if_true, if_false]; rfl

theorem unboundedPoll_withMaps (e : Event) :
    unboundedPoll e (s.withMaps h p) = ((unboundedPoll e s).1, (unboundedPoll e s).2.withMaps h p) := by
  unfold unboundedPoll
  simp only [State.withMaps_statusWord, oracleMatch_withMaps]
  split <;> rfl

theorem memRead_withMaps (i : Byte) : memRead i (s.withMaps h p) = memRead i s := rfl

end

end Sys2Proof.Machine
end

