-- ==== Sys2Proof/Laws/PerInstr.lean ====
section
/-! SUPPORT. Statements made of every instruction, one lemma per constructor. -/

namespace Sys2Proof.Laws.EncodeRow

/-- The word of a well-formed command selects its row of the opcode table by its top byte (R62), writes the reserved bits and the ignored bit 23 as 0 and carries the three operand fields (R53, R66). -/
def Statement (i : Instr) : Prop :=
  i.wellFormed = true →
    (encode i).toNat / 2 ^ 24 = i.op.code.toNat ∧ (encode i).toNat / 2 ^ 23 % 2 = 0 ∧
      (encode i).toNat / 2 ^ 16 % 128 = i.addr ∧ (encode i).toNat / 2 ^ 8 % 256 = i.reg ∧ (encode i).toNat % 256 = i.len

theorem ping (addr reg len : Nat) : Statement (.ping addr reg len) := by
  intro h
  have e := encode_toNat h
  obtain ⟨ha, hr, hn⟩ := (Instr.wellFormed_iff _).1 h
  omega

theorem read (addr reg len : Nat) : Statement (.read addr reg len) := by
  intro h
  have e := encode_toNat h
  obtain ⟨ha, hr, hn⟩ := (Instr.wellFormed_iff _).1 h
  omega

theorem write (addr reg len : Nat) : Statement (.write addr reg len) := by
  intro h
  have e := encode_toNat h
  obtain ⟨ha, hr, hn⟩ := (Instr.wellFormed_iff _).1 h
  omega

end Sys2Proof.Laws.EncodeRow
end

