-- ==== Sys2Proof/Tests/Slice0.lean ====
section
/-! SUPPORT. The model's own tests: the well-formedness smoke, words decoded, single steps with expected values from the spec's vectors (spec/95_test_vectors.md), and a witness for the hypotheses of every statement. -/

namespace Sys2Proof.Tests

open Sys2Proof.Machine

/-! ### Helpers -/

/-- A small state: budgets 3 and 2, the candidate patterns (log entry 12), a READ of 0x50 from register 0x10. -/
def base : State :=
  { State.reset with
    op := .read
    addr := 0x50#7
    reg := 0x10#8
    len := 2#8
    params := Config.candidate 3#32 2#32 }

/-- The small state in a phase, with the answers the environment will give. -/
def inPhase (p : Phase) (answers : List StatusWord) : State := { base with phase := p, statusAnswers := answers }

/-- A field of the next state, if there is one. -/
def nextField {α : Type} (f : State → α) : Host.Outcome State Fault Refusal → Option α
  | .next t => some (f t)
  | .fault _ => none
  | .refused _ => none

/-- Every bit set: it satisfies each event but BUS_IDLE (V-O1). -/
def every : StatusWord := 0xFFFFFFFF#32

/-- BUS_BUSY and nothing else (V-O1): it satisfies no event an operation waits for. -/
def busy : StatusWord := 0x00020000#32

/-- An idle block to which a word is offered. -/
def offered (w : CommandWord) (answers : List StatusWord) : State :=
  { base with script := [.offer w], statusAnswers := answers }

/-- The premise about unsatisfying answers, decided answer by answer. -/
theorem none_of_all {p : Params} {e : Event} {l : List StatusWord} (h : (l.all fun w => !oracleMatch p e w) = true) :
    noneSatisfies p e l := by simpa [noneSatisfies] using h

/-- Answers with every bit set report every awaited event (V-O1). -/
theorem every_reportsAll (n : Nat) : reportsAll base.params (List.replicate n every) := by
  intro w h
  rw [List.eq_of_mem_replicate h]
  decide

theorem base_tIdle : base.params.tIdle ≠ 0#32 := by decide

theorem base_tAddr : base.params.tAddr ≠ 0#32 := by decide

theorem base_busIdle : oracleMatch base.params .busIdle 0#32 = true := by decide

/-! ### Well-formedness: an ill-formed term for each check -/

theorem test_wellFormed_accepts_the_extremes :
    (Instr.read 0x7F 0xFF 255).wellFormed = true ∧ (Instr.write 0 0 0).wellFormed = true := by decide

theorem test_wellFormed_refuses_a_long_address :
    (Instr.ping 0x80 0 0).addrInRange = false ∧ (Instr.ping 0x80 0 0).wellFormed = false := by decide

theorem test_wellFormed_refuses_a_long_register :
    (Instr.read 0 0x100 0).regInRange = false ∧ (Instr.read 0 0x100 0).wellFormed = false := by decide

theorem test_wellFormed_refuses_a_long_length :
    (Instr.write 0 0 256).lenInRange = false ∧ (Instr.write 0 0 256).wellFormed = false := by decide

/-! ### Decoding: words written bit by bit from R53 and R62 -/

/-- PING 0x42: reserved bits 000000, OP 01, AX 0, ADDR 1000010, REG and LEN zero (V-E1). -/
theorem test_decode_ping : decode 0b000000_01_0_1000010_00000000_00000000#32 = .ok (.ping 0x42 0 0) := by rfl

/-- READ 0x50, 0x10, 2: OP 10, ADDR 1010000, REG 00010000, LEN 00000010 (V-E1). -/
theorem test_decode_read : decode 0b000000_10_0_1010000_00010000_00000010#32 = .ok (.read 0x50 0x10 2) := by rfl

/-- WRITE 0x50, 0x10, 3: OP 11, ADDR 1010000, REG 00010000, LEN 00000011 (V-E1). -/
theorem test_decode_write : decode 0b000000_11_0_1010000_00010000_00000011#32 = .ok (.write 0x50 0x10 3) := by rfl

/-- The refused words of V-E1. -/
theorem test_decode_refuses :
    decode 0x00000000#32 = .error .reservedOp ∧ decode 0x00FFFFFF#32 = .error .reservedOp ∧
    decode 0x04000000#32 = .error .reservedBits ∧ decode 0x81420000#32 = .error .reservedBits ∧
    decode 0xFFFFFFFF#32 = .error .reservedBits := by refine ⟨?_, ?_, ?_, ?_, ?_⟩ <;> rfl

/-- The encodings of R66 and the ignored bit 23 (V-E1). -/
theorem test_encode :
    encode (.ping 0x42 0 0) = 0x01420000#32 ∧ encode (.read 0x50 0x10 2) = 0x02501002#32 ∧
    encode (.write 0x50 0x10 3) = 0x03501003#32 ∧ decode 0x01C20000#32 = .ok (.ping 0x42 0 0) := by
  refine ⟨?_, ?_, ?_, ?_⟩ <;> rfl

theorem test_decodeTableWord :
    decodeTableWord 32 0x02501002 = some (.read 0x50 0x10 2) ∧ decodeTableWord 32 0x00420000 = none := by decide

/-- The textual form (R66). -/
theorem test_text : (Instr.read 0x50 0x10 2).text = "READ 80, 16, 2" := by decide

/-- The codes of R57 to R60, one each. -/
theorem test_codes :
    Result.timeout.code = 0b10#2 ∧ Event.txEmpty.code = 7#3 ∧ (Action.dataRd 0#8).code = 5#3 ∧
    stepActionCode none = 0#3 ∧ Phase.stop.code = 18#5 := by decide

/-- V-E2. -/
theorem test_wire : wire 0x51#7 .write = 0xA2#8 ∧ wire 0x43#7 .read = 0x87#8 := by decide

/-! ### The oracle: rows of V-O1 -/

/-- Row `0x00070080`: BUS_BUSY and TX_EMPTY and nothing else. -/
theorem test_match_row5 :
    oracleMatch base.params .busBusy 0x00070080#32 = true ∧ oracleMatch base.params .busIdle 0x00070080#32 = false ∧
    oracleMatch base.params .addrTxSelected 0x00070080#32 = false ∧
    oracleMatch base.params .txEmpty 0x00070080#32 = true := by decide

/-- Row `0x00010001`: a missing pattern bit is not made up for. -/
theorem test_match_row4 :
    oracleMatch base.params .startSelected 0x00010001#32 = false ∧
    oracleMatch base.params .busIdle 0x00010001#32 = true := by decide

/-! ### Single steps, expected values from V-A1, V-B4, V-B5, V-P2, V-R1, V-R4 and V-W1, V-W2, V-W4 -/

/-- The step right after reset runs the offered command, one word for each command (V-A1, V-E1). -/
theorem test_offered_command_is_accepted :
    nextField (fun t => (t.phase, t.op, t.addr, t.done)) (step (State.reset.withFetchWord 32 0x01420000)) =
      some (.busWait, .ping, 0x42#7, false) ∧
    nextField (fun t => (t.phase, t.op, t.reg, t.len)) (step (State.reset.withFetchWord 32 0x02501002)) =
      some (.busWait, .read, 0x10#8, 2#8) ∧
    nextField (fun t => (t.phase, t.op, t.reg, t.len)) (step (State.reset.withFetchWord 32 0x03501003)) =
      some (.busWait, .write, 0x10#8, 3#8) := by decide

/-- An illegal word, and any word offered while busy, changes nothing (V-A1). -/
theorem test_offer_not_accepted_changes_nothing :
    nextField (fun t => (t.phase, t.done, t.trace)) (step (State.reset.withFetchWord 32 0)) = some (.idle, false, []) ∧
    nextField (fun t => (t.phase, t.op, t.addr))
      (step { inPhase .addrWWait [] with op := .ping, addr := 0x42#7, script := [.offer 0x03501003#32] }) =
      some (.addrWWait, .ping, 0x42#7) := by decide

/-- A bounded wait entered with 0 takes no sample (V-B4); on the last permitted sample a satisfied event wins (V-B5). -/
theorem test_bounded_poll :
    nextField (fun t => (t.phase, t.result, t.done, t.trace)) (step { inPhase .busWait [] with tmo := 0#32 }) =
      some (.idle, .timeout, true, []) ∧
    nextField (fun t => (t.phase, t.tmo)) (step { inPhase .busWait [0#32] with tmo := 1#32 }) =
      some (.start1, 1#32) := by decide

/-- V-P2, step 4, with T_ADDR = 2. -/
theorem test_ping_sends_the_address :
    nextField (fun t => (t.phase, t.tmo, t.trace)) (step { inPhase .addrW [] with op := .ping, addr := 0x43#7 }) =
      some (.addrWWait, 2#32, [.dataWr 0x86#8]) := by decide

/-- The last unsatisfied sample of the address wait: a PING goes to STOP (V-P2, step 7), a READ ends with no STOP (V-R4). -/
theorem test_absent_device :
    nextField (fun t => (t.phase, t.tmo, t.result, t.done))
      (step { inPhase .addrWWait [busy] with op := .ping, tmo := 1#32 }) = some (.stop, 0#32, .noAck, false) ∧
    nextField (fun t => (t.phase, t.result, t.done, t.trace)) (step { inPhase .addrWWait [busy] with tmo := 1#32 }) =
      some (.idle, .noAck, true, [.statusRd busy]) := by decide

/-- LEN = 2 goes to ACKCFG (V-R1, step 7); LEN = 1 does not (R116 (b)). -/
theorem test_read_acknowledgment :
    nextField State.phase (step (inPhase .regSelWait [0x00070084#32])) = some .ackCfg ∧
    nextField State.phase (step { inPhase .regSelWait [0x00070084#32] with len := 1#8 }) = some .start2 := by decide

/-- V-R1, step 16: the last byte. -/
theorem test_read_takes_the_last_byte :
    nextField (fun t => (t.phase, t.idx, t.result, t.buffer))
      (step { inPhase .rxTake [] with idx := 1#8, dataAnswers := [0xBB#8], buffer := [(0, 0xAA#8)] }) =
      some (.stop, 2#8, .ok, [(0, 0xAA#8), (1, 0xBB#8)]) := by decide

/-- V-W1: the second byte of three, sent from the buffer. -/
theorem test_write_puts_a_byte :
    nextField (fun t => (t.phase, t.idx, t.trace))
      (step { inPhase .txPut [] with op := .write, len := 3#8, idx := 1#8, buffer := [(0, 1#8), (1, 2#8), (2, 3#8)] }) =
      some (.txWait, 2#8, [.dataWr 2#8]) := by decide

/-- LEN = 0 goes straight to BTF_WAIT (V-W2), where TX without BTF is not enough (V-W4). -/
theorem test_write_ends_in_btfWait :
    nextField State.phase (step { inPhase .regSelWait [0x00020080#32] with op := .write, len := 0#8 }) = some .btfWait ∧
    nextField State.phase (step { inPhase .btfWait [0x00020080#32] with op := .write }) = some .btfWait := by decide

/-- V-A1: STATUS = 0x2 after a PING that reports OK, 0x6 after NOACK, 0xA after TIMEOUT (V-P1 to V-P3). -/
theorem test_status_port :
    ({ base with done := true } : State).statusPort = 0x2#4 ∧
    ({ base with done := true, result := .noAck } : State).statusPort = 0x6#4 ∧
    ({ base with done := true, result := .timeout } : State).statusPort = 0xA#4 := by decide

/-- Writing the unlisted value takes the entry out. -/
theorem test_memory_is_canonical : Memory.put [(0, 1#8), (4, 2#8)] 4 0#8 = [(0, 1#8)] := by decide

/-- P3: of the candidates, those whose result is OK. -/
theorem test_scan_report :
    scanReport [(0x41, .noAck), (0x42, .ok), (0x43, .timeout)] = [0x42] ∧ scanWords[0x42]? = some 0x01420000#32 := by
  decide

/-- The results a host program has, if it has finished. -/
def answered {α : Type} : HostRun α → Option α
  | .finished a _ => some a
  | .waiting _ => none
  | .fault _ => none
  | .refused _ => none

/-- P1: with T_ADDR = 2 here, of the candidates 0x42 and 0x43 the first answers at once and the second not at all (R100, R104). -/
theorem test_scan_calls_each_candidate :
    answered (scanResults 9 [0x42, 0x43]
      { base with statusAnswers := [0#32, 0x00030001#32, 0x00070082#32, 0#32, 0x00030001#32, busy, busy] }) =
      some [(0x42, .ok), (0x43, .noAck)] := by decide

/-- V-A3: a PING that never sees START_SELECTED has no result, whatever the host's patience. -/
theorem test_call_waits_in_a_hang :
    answered (call 8 (.ping 0x42 0 0) { base with statusAnswers := 0#32 :: List.replicate 9 busy }) = none := by decide

/-- P4: after a READ that reports NOACK the bus is still held, and the views of the trace say so (R153). -/
theorem test_views_of_the_trace :
    busHeld [.dataWr 0xA2#8, .statusRd 0#32, .start] = true ∧ busHeld [.stop, .dataWr 0x86#8, .start] = false ∧
    ackTurnedOn [.stop, .start, .ackEn] = true ∧ lastDataWritten [.stop, .dataWr 0x86#8] = some 0x86#8 := by decide

/-! ### Witnesses: for each statement with hypotheses, states and operands that meet them all, one for each clause -/

theorem witness_DecodeOfEncode :
    (Instr.ping 0 0 0).wellFormed = true ∧ (Instr.read 0x7F 0xFF 255).wellFormed = true ∧
    (Instr.write 0x7F 0xFF 255).wellFormed = true := by decide

theorem witness_EncodeOfDecode : decode 0x03FFFFFF#32 = .ok (.write 0x7F 0xFF 0xFF) := by rfl

/-- Both sides of the test, with the least and the greatest words of each. -/
theorem witness_DecodingProcedureIsTotal :
    ((0x00FFFFFF#32).extractLsb' 24 2 = 0b00#2 ∧ (0x04000000#32).extractLsb' 26 6 ≠ 0#6) ∧
    ¬ ((0x03FFFFFF#32).extractLsb' 26 6 ≠ 0#6 ∨ (0x03FFFFFF#32).extractLsb' 24 2 = 0b00#2) := by decide

theorem witness_PhaseCodesAreOneToOne :
    Phase.code .stop = 18#5 ∧ 19 ≤ (19#5).toNat ∧ 19 ≤ (31#5).toNat := by decide

theorem witness_OracleMatchesPatternBits :
    base.params.pattern .startSelected = some 0x00030001#32 ∧
    oracleMatch base.params .startSelected 0x00030001#32 = true ∧
    oracleMatch base.params .startSelected 0x00010001#32 = false := by decide

/-- Accepted; refused for its reserved bits; refused for its operation; refused while busy. -/
theorem witness_OfferIsAcceptedOrChangesNothing :
    ((offered 0x017F0000#32 []).script = .offer 0x017F0000#32 :: [] ∧ (offered 0x017F0000#32 []).phase = .idle ∧
      (0x017F0000#32).extractLsb' 26 6 = 0#6 ∧ (0x017F0000#32).extractLsb' 24 2 ≠ 0b00#2) ∧
    ((offered 0x05420000#32 []).script = .offer 0x05420000#32 :: [] ∧ (0x05420000#32).extractLsb' 26 6 ≠ 0#6) ∧
    ((offered 0x00420000#32 []).script = .offer 0x00420000#32 :: [] ∧ (0x00420000#32).extractLsb' 24 2 = 0b00#2) ∧
    (({ offered 0x017F0000#32 [] with phase := .stop } : State).script = .offer 0x017F0000#32 :: [] ∧
      ({ offered 0x017F0000#32 [] with phase := .stop } : State).phase ≠ .idle) := by decide

theorem witness_StepRunsTheOfferedCommand :
    (offered 0x01420000#32 []).script = .offer 0x01420000#32 :: [] ∧ (offered 0x01420000#32 []).phase = .idle ∧
    decode 0x01420000#32 = .ok (.ping 0x42 0 0) := by refine ⟨?_, ?_, ?_⟩ <;> rfl

/-- Silent and let run, each while busy and in IDLE. -/
theorem witness_StepRunsTheLatchedCommand :
    ((inPhase .start1 []).script = [] ∧ (inPhase .start1 []).phase ≠ .idle) ∧
    (({ inPhase .start1 [] with script := [.run] } : State).script = .run :: [] ∧ (inPhase .start1 []).phase ≠ .idle) ∧
    (base.script = [] ∧ base.phase = .idle) ∧
    (({ base with script := [.run] } : State).script = .run :: [] ∧ base.phase = .idle) := by decide

theorem witness_EveryCommandStartsByAccept :
    base.phase = .idle ∧ (Instr.ping 0x7F 0xFF 255).wellFormed = true ∧ (Instr.read 0 0 0).wellFormed = true ∧
    (Instr.write 0x7F 0xFF 255).wellFormed = true := by decide

theorem witness_SharedActionPhases :
    (inPhase .start1 []).phase = .start1 ∧ (inPhase .addrW []).phase = .addrW ∧ (inPhase .regSel []).phase = .regSel ∧
    (Instr.read 0 0 0).op ≠ .ping ∧ (Instr.write 0 0 0).op ≠ .ping := by decide

theorem witness_StopPhaseFinishes : (inPhase .stop []).phase = .stop := by decide

/-- The four cases: no budget left, satisfied on the last sample, unsatisfied on the last sample, unsatisfied with one to spare. -/
theorem witness_BusWaitStep :
    (inPhase .busWait []).phase = .busWait ∧ (inPhase .busWait []).tmo = 0#32 ∧
    oracleMatch base.params .busIdle ({ inPhase .busWait [0#32] with tmo := 1#32 } : State).statusWord = true ∧
    oracleMatch base.params .busIdle ({ inPhase .busWait [busy] with tmo := 1#32 } : State).statusWord = false ∧
    ({ inPhase .busWait [busy] with tmo := 2#32 } : State).tmo ≠ 1#32 := by decide

theorem witness_AddressWriteWaitStep :
    (inPhase .addrWWait [every]).phase = .addrWWait ∧
    (({ inPhase .addrWWait [every] with tmo := 1#32 } : State).tmo ≠ 0#32 ∧
      oracleMatch base.params .addrTxSelected (inPhase .addrWWait [every]).statusWord = true) ∧
    (({ inPhase .addrWWait [busy] with tmo := 2#32 } : State).tmo ≠ 1#32 ∧
      oracleMatch base.params .addrTxSelected (inPhase .addrWWait [busy]).statusWord = false) ∧
    ({ inPhase .addrWWait [busy] with tmo := 1#32 } : State).tmo = 1#32 ∧ (inPhase .addrWWait []).tmo = 0#32 := by decide

theorem witness_RegisterSelectWaitStep :
    (inPhase .regSelWait [every]).phase = .regSelWait ∧
    oracleMatch base.params .txEmpty (inPhase .regSelWait [busy]).statusWord = false ∧
    oracleMatch base.params .txEmpty (inPhase .regSelWait [every]).statusWord = true ∧
    (Instr.read 0 0 0).op = .read ∧ (Instr.write 0 0 0).op = .write := by decide

theorem witness_UnboundedWaitSteps :
    (inPhase .start1Wait [every]).phase = .start1Wait ∧ (inPhase .start2Wait [every]).phase = .start2Wait ∧
    (inPhase .rxWait [every]).phase = .rxWait ∧ (inPhase .txWait [every]).phase = .txWait ∧
    (inPhase .btfWait [every]).phase = .btfWait := by decide

theorem witness_ReadActionPhases :
    (inPhase .ackCfg []).phase = .ackCfg ∧ (inPhase .start2 []).phase = .start2 ∧ (inPhase .addrR []).phase = .addrR := by
  decide

theorem witness_AddressReadWaitStep :
    (inPhase .addrRWait [every]).phase = .addrRWait ∧
    (({ inPhase .addrRWait [every] with tmo := 1#32 } : State).tmo ≠ 0#32 ∧
      oracleMatch base.params .addrRxSelected (inPhase .addrRWait [every]).statusWord = true) ∧
    (({ inPhase .addrRWait [busy] with tmo := 2#32 } : State).tmo ≠ 1#32 ∧
      oracleMatch base.params .addrRxSelected (inPhase .addrRWait [busy]).statusWord = false) ∧
    ({ inPhase .addrRWait [busy] with tmo := 1#32 } : State).tmo = 1#32 ∧ (inPhase .addrRWait []).tmo = 0#32 := by decide

/-- Index 0, index 254, index 255, and index 254 of a buffer of 254 bytes. -/
theorem witness_ReceiveTakesOneByte :
    (inPhase .rxTake []).phase = .rxTake ∧ ((0#8).toNat < 255 ∧ (0#8).toNat < base.bufferSize) ∧
    ((254#8).toNat < 255 ∧ (254#8).toNat < base.bufferSize) ∧ (255#8).toNat = 255 ∧
    ({ inPhase .rxTake [] with bufferSize := 254, idx := 254#8 } : State).bufferSize ≤ (254#8).toNat ∧
    Memory.wf base.buffer := by decide

theorem witness_TransmitPutsOneByte :
    (inPhase .txPut []).phase = .txPut ∧ ((254#8).toNat < 255 ∧ (254#8).toNat < base.bufferSize) ∧ (255#8).toNat = 255 ∧
    ({ inPhase .txPut [] with bufferSize := 0 } : State).bufferSize ≤ (0#8).toNat := by decide

theorem witness_PingHasNoRegisterSelect :
    (inPhase .regSelWait [every]).phase = .regSelWait ∧
    oracleMatch base.params .txEmpty (inPhase .regSelWait [every]).statusWord = true := by decide

/-- A next state in IDLE, in a storing phase and in a phase that stores nothing. -/
theorem witness_ExecFrameOfRegisters :
    (∃ t, exec (.ping 0x7F 0 0) base = .next t) ∧ (∃ t, exec (.read 0x50 0x10 2) (inPhase .rxTake []) = .next t) ∧
    ∃ t, exec (.write 0x50 0x10 2) (inPhase .addrW []) = .next t := ⟨⟨_, rfl⟩, ⟨_, rfl⟩, ⟨_, rfl⟩⟩

theorem witness_ExecFrameOfMemory :
    (∃ t, exec (.read 0x50 0x10 2) (inPhase .rxTake []) = .next t) ∧
    ¬ ((inPhase .rxTake []).phase = .rxTake ∧ 1 = (inPhase .rxTake []).idx.toNat) ∧
    (∃ t, exec (.write 0x50 0x10 2) (inPhase .txPut []) = .next t) ∧
    ¬ ((inPhase .txPut []).phase = .rxTake ∧ 0 = (inPhase .txPut []).idx.toNat) :=
  ⟨⟨_, rfl⟩, by decide, ⟨_, rfl⟩, by decide⟩

/-- A state of the invariant for each of the six actions. -/
theorem witness_ActionsBelongToPhases :
    (StateInv { inPhase .busWait [0#32] with tmo := 1#32 } ∧
      nextField State.trace (step { inPhase .busWait [0#32] with tmo := 1#32 }) = some [.statusRd 0#32]) ∧
    (StateInv (inPhase .start1 []) ∧ nextField State.trace (step (inPhase .start1 [])) = some [.start]) ∧
    (StateInv { inPhase .addrW [] with trace := [.start] } ∧
      nextField State.trace (step { inPhase .addrW [] with trace := [.start] }) = some [.dataWr 0xA0#8, .start]) ∧
    (StateInv { inPhase .ackCfg [] with trace := [.start] } ∧
      nextField State.trace (step { inPhase .ackCfg [] with trace := [.start] }) = some [.ackEn, .start]) ∧
    (StateInv { inPhase .rxTake [] with trace := [.start], dataAnswers := [7#8] } ∧
      nextField State.trace (step { inPhase .rxTake [] with trace := [.start], dataAnswers := [7#8] }) =
        some [.dataRd 7#8, .start]) ∧
    (StateInv { inPhase .stop [] with trace := [.start], idx := 2#8 } ∧
      nextField State.trace (step { inPhase .stop [] with trace := [.start], idx := 2#8 }) = some [.stop, .start]) := by
  refine ⟨⟨?_, ?_⟩, ⟨?_, ?_⟩, ⟨?_, ?_⟩, ⟨?_, ?_⟩, ⟨?_, ?_⟩, ?_, ?_⟩ <;> decide

theorem witness_PeripheralControlsFollowTheActions :
    (inPhase .ackCfg []).script = [] ∧ (inPhase .ackCfg []).phase ≠ .idle ∧
    nextField (fun t => ackTurnedOn t.trace) (step (inPhase .ackCfg [])) = some true := by decide

/-- A bounded wait without budget, a step with an action, and a step of the host. -/
theorem witness_OneActionPerStep :
    ((inPhase .busWait []).script = [] ∧ boundedWait (inPhase .busWait []).phase = true ∧
      (inPhase .busWait []).tmo = 0#32 ∧ ∃ t, step (inPhase .busWait []) = .next t) ∧
    ((inPhase .start1 []).phase ≠ .idle ∧ boundedWait (inPhase .start1 []).phase = false ∧
      ∃ t, step (inPhase .start1 []) = .next t) ∧
    ((offered 0x01420000#32 []).script = .offer 0x01420000#32 :: [] ∧ (HostStep.offer 0x01420000#32) ≠ .run ∧
      ∃ t, step (offered 0x01420000#32 []) = .next t) :=
  ⟨⟨by decide, by decide, by decide, ⟨_, rfl⟩⟩, ⟨by decide, by decide, ⟨_, rfl⟩⟩, ⟨by decide, by decide, ⟨_, rfl⟩⟩⟩

theorem witness_TransitionsAreInTheTable :
    (inPhase .regSelWait [every]).script = [] ∧ (inPhase .regSelWait [every]).phase ≠ .idle ∧
    nextField State.phase (step (inPhase .regSelWait [every])) = some .ackCfg := by decide

/-- A change of RESULT in each of the deciding phases. -/
theorem witness_ResultIsWrittenByDecidingSteps :
    nextField State.result (step (inPhase .busWait [])) = some .timeout ∧
    nextField State.result (step (inPhase .addrWWait [])) = some .noAck ∧
    nextField State.result (step (inPhase .addrRWait [])) = some .noAck ∧
    nextField State.result (step { inPhase .rxTake [] with idx := 1#8, result := .noAck }) = some .ok ∧
    nextField State.result (step { inPhase .btfWait [every] with op := .write, result := .noAck }) = some .ok ∧
    base.result = .ok := by decide

theorem witness_ParametersNeverChange : ∃ t, step (inPhase .addrW []) = .next t := ⟨_, rfl⟩

theorem witness_StatusPortShowsTheFlags :
    ({ base with script := [.readStatus] } : State).script = .readStatus :: [] := by decide

/-- A step that keeps the buffer and one that writes it. -/
theorem witness_HostCannotDisturbAnOperation :
    (({ inPhase .stop [] with script := [.readStatus] } : State).script = .readStatus :: [] ∧
      HostStep.readStatus ≠ .run ∧ HostStep.readStatus ≠ .reset ∧ (inPhase .stop []).phase ≠ .idle ∧
      HostStep.readStatus.quiet = true ∧ ∃ t, step { inPhase .stop [] with script := [.readStatus] } = .next t) ∧
    (HostStep.bufWrite 254#8 1#8 ≠ .run ∧ HostStep.bufWrite 254#8 1#8 ≠ .reset ∧
      ∃ t, step { inPhase .stop [] with script := [.bufWrite 254#8 1#8] } = .next t) :=
  ⟨⟨by decide, by decide, by decide, by decide, by decide, ⟨_, rfl⟩⟩, ⟨by decide, by decide, ⟨_, rfl⟩⟩⟩

theorem witness_HostBufferWriteIsSeen :
    ({ base with script := [.bufWrite 254#8 1#8] } : State).script = .bufWrite 254#8 1#8 :: [] ∧ (254#8).toNat < 255 ∧
    (0#8).toNat < 255 ∧ Memory.wf base.buffer := by decide

theorem witness_ResetInputAbandonsTheOperation :
    ({ inPhase .start1Wait [] with script := [.reset] } : State).script = .reset :: [] := by decide

theorem witness_ScanIssuesEveryCandidateOnce : 0 < 127 ∧ 126 < 127 := by decide

/-- A state of the invariant and its next state. -/
theorem witness_StepKeepsInvariant :
    StateInv { inPhase .rxTake [] with trace := [.start], buffer := [(3, 1#8)] } ∧
    ∃ t, step { inPhase .rxTake [] with trace := [.start], buffer := [(3, 1#8)] } = .next t := ⟨by decide, ⟨_, rfl⟩⟩

theorem witness_SequencerNeverStops :
    StateInv { inPhase .txPut [] with op := .write, trace := [.start], idx := 254#8, len := 255#8 } ∧
    ({ inPhase .txPut [] with op := .write, len := 255#8 } : State).script = [] ∧ (255#8).toNat ≤ base.bufferSize := by
  decide

/-- A READ whose first address wait expires. -/
theorem witness_FailedOperationMovesNoByte :
    StateInv { inPhase .addrWWait [busy] with trace := [.start], tmo := 1#32 } ∧
    (inPhase .addrWWait [busy]).script = [] ∧
    nextField (fun t => (t.phase, t.result)) (step { inPhase .addrWWait [busy] with trace := [.start], tmo := 1#32 }) =
      some (.idle, .noAck) := by decide

/-- Fewer samples than the budget, and as many. -/
theorem witness_BoundedWaitExpiresAtItsBudget :
    ∃ (s : State) (e : Event) (fewer all rest : List StatusWord),
      s.script = [] ∧ boundedWait s.phase = true ∧ awaited s.phase = some e ∧ s.tmo ≠ 0#32 ∧
      s.statusAnswers = fewer ++ ([busy] ++ rest) ∧ noneSatisfies s.params e fewer ∧ fewer.length < s.tmo.toNat ∧
      s.statusAnswers = all ++ rest ∧ noneSatisfies s.params e all ∧ all.length = s.tmo.toNat :=
  ⟨{ inPhase .addrRWait [busy, busy, every] with tmo := 2#32 }, .addrRxSelected, [busy], [busy, busy], [every],
    by decide, by decide, by decide, by decide, by decide, none_of_all (by decide), by decide, by decide,
    none_of_all (by decide), by decide⟩

/-- The event comes on the last permitted sample. -/
theorem witness_BoundedWaitEndsAtSatisfyingSample :
    ∃ (s : State) (e : Event) (answers rest : List StatusWord) (w : StatusWord),
      s.script = [] ∧ boundedWait s.phase = true ∧ awaited s.phase = some e ∧ s.statusAnswers = answers ++ w :: rest ∧
      noneSatisfies s.params e answers ∧ oracleMatch s.params e w = true ∧ answers.length < s.tmo.toNat :=
  ⟨{ inPhase .busWait [busy, 0#32, busy] with tmo := 2#32 }, .busIdle, [busy], [busy], 0#32, by decide, by decide,
    by decide, by decide, none_of_all (by decide), by decide, by decide⟩

theorem witness_UnboundedWaitHangsWithoutItsEvent :
    ∃ (s : State) (e : Event) (answers rest : List StatusWord),
      s.script = [] ∧ unboundedWait s.phase = true ∧ awaited s.phase = some e ∧ s.statusAnswers = answers ++ rest ∧
      noneSatisfies s.params e answers :=
  ⟨inPhase .start1Wait [busy, busy], .startSelected, [busy, busy], [], by decide, by decide, by decide, by decide,
    none_of_all (by decide)⟩

theorem witness_UnboundedWaitEndsUnderProgress :
    ∃ (s : State) (e : Event) (answers rest : List StatusWord),
      s.script = [] ∧ unboundedWait s.phase = true ∧ awaited s.phase = some e ∧ (s.phase = .regSelWait → s.op ≠ .ping) ∧
      s.statusAnswers = answers ++ rest ∧ envProgress s.params e answers :=
  ⟨inPhase .regSelWait [busy, every], .txEmpty, [busy, every], [], by decide, by decide, by decide, by decide, by decide,
    ⟨every, by simp, by decide⟩⟩

/-- The idle wait ends on the second of three samples, the start wait on the second, the address wait on the last of two (as in V-P5). -/
theorem witness_PingOfPresentDeviceReportsOk :
    ∃ (s : State) (a r n : Nat) (l1 l2 l3 rest : List StatusWord) (w1 w2 w3 : StatusWord),
      (Instr.ping a r n).wellFormed = true ∧ s.phase = .idle ∧ s.script = [.offer (encode (.ping a r n))] ∧
      s.statusAnswers = l1 ++ w1 :: (l2 ++ w2 :: (l3 ++ w3 :: rest)) ∧
      noneSatisfies s.params .busIdle l1 ∧ oracleMatch s.params .busIdle w1 = true ∧
      l1.length < s.params.tIdle.toNat ∧ noneSatisfies s.params .startSelected l2 ∧
      oracleMatch s.params .startSelected w2 = true ∧ noneSatisfies s.params .addrTxSelected l3 ∧
      oracleMatch s.params .addrTxSelected w3 = true ∧ l3.length < s.params.tAddr.toNat :=
  ⟨offered (encode (.ping 0x42 0 0)) [busy, 0#32, busy, every, busy, every], 0x42, 0, 0, [busy], [busy], [busy], [],
    0#32, every, every, by decide, by decide, by decide, by decide, none_of_all (by decide), by decide, by decide,
    none_of_all (by decide), by decide, none_of_all (by decide), by decide, by decide⟩

/-- A PING (P1), a READ (P4) and a WRITE with budget 0 (the corner case of V-P4). -/
theorem witness_AbsentDeviceReportsNoAck (i : Instr) (s : State) (l3 : List StatusWord)
    (h : (i, s, l3) = (.ping 0x43 0 0, offered (encode (.ping 0x43 0 0)) [0#32, every, busy, busy], [busy, busy]) ∨
      (i, s, l3) = (.read 0x51 0x10 2, offered (encode (.read 0x51 0x10 2)) [0#32, every, busy, busy], [busy, busy]) ∨
      (i, s, l3) = (.write 0x51 0 1,
        { offered (encode (.write 0x51 0 1)) [0#32, every] with params := Config.candidate 3#32 0#32 }, [])) :
    i.wellFormed = true ∧ s.phase = .idle ∧ s.script = [.offer (encode i)] ∧
      s.statusAnswers = 0#32 :: every :: (l3 ++ []) ∧ s.params.tIdle ≠ 0#32 ∧
      oracleMatch s.params .busIdle 0#32 = true ∧ oracleMatch s.params .startSelected every = true ∧
      noneSatisfies s.params .addrTxSelected l3 ∧ l3.length = s.params.tAddr.toNat := by
  rcases h with h | h | h <;> cases h <;>
    exact ⟨by decide, by decide, by decide, by decide, by decide, by decide, by decide, none_of_all (by decide), by decide⟩

/-- A READ with budget 3 (V-R6) and a PING with budget 0 (the corner case of V-P7). -/
theorem witness_BusyBusReportsTimeout (i : Instr) (s : State) (answers : List StatusWord)
    (h : (i, s, answers) =
        (.read 0x50 0x10 3, offered (encode (.read 0x50 0x10 3)) [busy, busy, busy], [busy, busy, busy]) ∨
      (i, s, answers) = (.ping 0x42 0 0,
        { offered (encode (.ping 0x42 0 0)) [] with params := Config.candidate 0#32 3#32 }, [])) :
    i.wellFormed = true ∧ s.phase = .idle ∧ s.script = [.offer (encode i)] ∧ s.statusAnswers = answers ++ [] ∧
      noneSatisfies s.params .busIdle answers ∧ answers.length = s.params.tIdle.toNat := by
  rcases h with h | h <;> cases h <;>
    exact ⟨by decide, by decide, by decide, by decide, none_of_all (by decide), by decide⟩

/-- Every length from 0 to 255: the state whose environment has the answers and whose buffer has the bytes. -/
theorem witness_WriteSendsItsBuffer (n : Nat) (hn : n ≤ 255) :
    ∃ s : State, (Instr.write 0x50 0x10 n).wellFormed = true ∧ s.phase = .idle ∧
      s.script = [.offer (encode (.write 0x50 0x10 n))] ∧ s.params.tIdle ≠ 0#32 ∧ s.params.tAddr ≠ 0#32 ∧
      n ≤ s.bufferSize ∧ s.statusAnswers = 0#32 :: (List.replicate (n + 4) every ++ []) ∧
      oracleMatch s.params .busIdle 0#32 = true ∧ reportsAll s.params (List.replicate (n + 4) every) ∧
      (List.replicate (n + 4) every).length = n + 4 :=
  ⟨offered (encode (.write 0x50 0x10 n)) (0#32 :: (List.replicate (n + 4) every ++ [])),
    by simp [Instr.wellFormed, Instr.addrInRange, Instr.regInRange, Instr.lenInRange, Instr.addr, Instr.reg, Instr.len, hn],
    rfl, rfl, base_tIdle, base_tAddr, hn, rfl, base_busIdle, every_reportsAll _, by simp⟩

/-- Every length from 0 to 255, as for WRITE, with as many data bytes. -/
theorem witness_ReadFillsItsBuffer (n : Nat) (hn : n ≤ 255) :
    ∃ (s : State) (bytes : List Byte), (Instr.read 0x50 0x10 n).wellFormed = true ∧ s.phase = .idle ∧
      s.script = [.offer (encode (.read 0x50 0x10 n))] ∧ s.params.tIdle ≠ 0#32 ∧ s.params.tAddr ≠ 0#32 ∧
      n ≤ s.bufferSize ∧ Memory.wf s.buffer ∧ s.statusAnswers = 0#32 :: (List.replicate (n + 5) every ++ []) ∧
      oracleMatch s.params .busIdle 0#32 = true ∧ reportsAll s.params (List.replicate (n + 5) every) ∧
      (List.replicate (n + 5) every).length = n + 5 ∧ s.dataAnswers = bytes ++ [] ∧ bytes.length = n :=
  ⟨{ offered (encode (.read 0x50 0x10 n)) (0#32 :: (List.replicate (n + 5) every ++ [])) with
      dataAnswers := List.replicate n 0xAA#8 }, List.replicate n 0xAA#8,
    by simp [Instr.wellFormed, Instr.addrInRange, Instr.regInRange, Instr.lenInRange, Instr.addr, Instr.reg, Instr.len, hn],
    rfl, rfl, base_tIdle, base_tAddr, hn, ⟨List.Pairwise.nil, by simp [offered, base, State.reset]⟩, rfl, base_busIdle,
    every_reportsAll _, by simp, by simp, by simp⟩

/-- A next state, a fault and a refusal, each of a step. -/
theorem witness_AddressMapsAffectNoStep :
    (∃ t, step (inPhase .addrW []) = .next t) ∧
    step { inPhase .rxTake [] with idx := 255#8 } = .fault .bufferIndexOutside ∧
    step { inPhase .rxTake [] with bufferSize := 0 } = .refused .bufferTooShort := ⟨⟨_, rfl⟩, rfl, rfl⟩

/-- PING with its idle wait spent at once: it returns in its second step, and with no patience at all the call still waits. -/
theorem witness_BlockingCallReturnsTheResult :
    ((Instr.ping 0x7F 0xFF 255).wellFormed = true ∧ base.phase = .idle ∧ base.script = []) ∧
    (∃ t, run 2 { base with params := Config.candidate 0#32 0#32, script := [.offer (encode (.ping 0x7F 0xFF 255))] } = .next t ∧
      t.returned = some .timeout) ∧
    (∃ t, run 1 { base with script := [.offer (encode (.ping 0x7F 0xFF 255))] } = .next t ∧ t.returned = none) ∧
    ∃ t, call 1 (.ping 0x7F 0xFF 255) { base with params := Config.candidate 0#32 0#32 } = .finished .timeout t :=
  ⟨by decide, ⟨_, rfl, by decide⟩, ⟨_, rfl, by decide⟩, ⟨_, rfl⟩⟩

/-- A device at 0x42; a bus busy for the first candidate; no device at the others. -/
def scanned (c : Nat) : Result := if c = 0x42 then .ok else if c = 0 then .timeout else .noAck

/-- The answers that give these results with the budgets 3 and 2. -/
def scanAnswers (c : Nat) : List StatusWord :=
  if c = 0x42 then [busy, 0#32, every, busy, every] else if c = 0 then [busy, busy, busy] else [0#32, every, busy, busy]

theorem pingAnswers_scanAnswers (c : Nat) : pingAnswers base.params (scanned c) (scanAnswers c) := by
  unfold scanned scanAnswers
  split
  · exact ⟨[busy], 0#32, [], every, [busy], every, rfl, none_of_all (by decide), by decide, by decide,
      none_of_all (by decide), by decide, none_of_all (by decide), by decide, by decide⟩
  · split
    · exact ⟨none_of_all (by decide), by decide⟩
    · exact ⟨0#32, every, [busy, busy], rfl, by decide, by decide, by decide, none_of_all (by decide), by decide⟩

theorem witness_ScanReportsTheCandidatesWithOk :
    base.phase = .idle ∧ base.script = [] ∧
    ({ base with statusAnswers := (List.range 127).flatMap scanAnswers ++ [] } : State).statusAnswers =
      (List.range 127).flatMap scanAnswers ++ [] ∧
    ∀ c, c < 127 → pingAnswers base.params (scanned c) (scanAnswers c) ∧ (scanAnswers c).length + 5 ≤ 10 := by
  refine ⟨rfl, rfl, rfl, fun c _ => ⟨pingAnswers_scanAnswers c, ?_⟩⟩
  unfold scanAnswers
  split
  · decide
  · split <;> decide

end Sys2Proof.Tests
end

