-- ==== Sys2Proof/Proofs/Maps.lean ====
section
/-! The address maps (R9, R48): every state update and every step rule commutes with `State.withMaps`, so the machine's step does. -/

namespace Sys2Proof.Machine

/-- What a step answers, with `f` applied to the next state; a stop stays as it is. -/
def onNext (f : State → State) : Host.Outcome State Fault Refusal → Host.Outcome State Fault Refusal
  | .next s => .next (f s)
  | .fault r => .fault r
  | .refused r => .refused r

@[simp] theorem onNext_next (f : State → State) (s : State) : onNext f (.next s) = .next (f s) := rfl
@[simp] theorem onNext_fault (f : State → State) (r : Fault) : onNext f (.fault r) = .fault r := rfl
@[simp] theorem onNext_refused (f : State → State) (r : Refusal) : onNext f (.refused r) = .refused r := rfl

section
variable (h : HostMap) (p : PeriphMap) (s : State)

/-! ### The ports and the updates of the state -/

namespace State

theorem withMaps_statusPort : (s.withMaps h p).statusPort = s.statusPort := rfl
theorem withMaps_cmdReady : (s.withMaps h p).cmdReady = s.cmdReady := rfl
theorem withMaps_lastByte : (s.withMaps h p).lastByte = s.lastByte := rfl

theorem withMaps_dataTaken : (s.withMaps h p).dataTaken = s.dataTaken.withMaps h p := rfl
theorem withMaps_note (e : HostSeen) : (s.withMaps h p).note e = (s.note e).withMaps h p := rfl
theorem withMaps_stored (i : Nat) (v : Byte) : (s.withMaps h p).stored i v = (s.stored i v).withMaps h p := rfl

end State

theorem memWrite_withMaps (i v : Byte) :
    memWrite i v (s.withMaps h p) = onNext (State.withMaps h p) (memWrite i v s) := by
  unfold memWrite
  by_cases h1 : bufferSpace ≤ i.toNat
  · simp only [h1, if_true, onNext_fault]
  · by_cases h2 : s.bufferSize ≤ i.toNat
    · simp only [h1, h2, if_true, if_false, State.withMaps_bufferSize, onNext_refused]
    · simp only [h1, h2, if_false, State.withMaps_bufferSize, State.withMaps_stored, onNext_next]

theorem hostBufWrite_withMaps (i v : Byte) :
    hostBufWrite i v (s.withMaps h p) = onNext (State.withMaps h p) (hostBufWrite i v s) := by
  unfold hostBufWrite
  split <;> rfl

theorem hostBufRead_withMaps (i : Byte) :
    hostBufRead i (s.withMaps h p) = onNext (State.withMaps h p) (hostBufRead i s) := by
  unfold hostBufRead
  split <;> rfl

/-! ### The step rules of the phases that branch -/

theorem waitFor_withMaps (e : Event) (q : Phase) :
    waitFor e q (s.withMaps h p) = (waitFor e q s).withMaps h p := by
  simp only [waitFor_eq, oracleMatch_withMaps, State.withMaps_statusWord]
  split <;> rfl

theorem busWait_withMaps : busWait (s.withMaps h p) = (busWait s).withMaps h p := by
  unfold busWait
  rw [boundedPoll_withMaps]
  obtain ⟨_ | _ | _, _⟩ := boundedPoll .busIdle s <;> rfl

theorem addrWWait_withMaps (op : Op) : addrWWait op (s.withMaps h p) = (addrWWait op s).withMaps h p := by
  unfold addrWWait
  rw [boundedPoll_withMaps]
  obtain ⟨_ | _ | _, _⟩ := boundedPoll .addrTxSelected s <;> cases op <;> rfl

theorem addrRWait_withMaps : addrRWait (s.withMaps h p) = (addrRWait s).withMaps h p := by
  unfold addrRWait State.lenZero
  rw [boundedPoll_withMaps]
  obtain ⟨_ | _ | _, _⟩ := boundedPoll .addrRxSelected s
  · by_cases hn : s.len = 0#8 <;> simp only [State.withMaps_len, hn] <;> rfl
  · rfl
  · rfl

theorem regSelWait_withMaps (op : Op) :
    regSelWait op (s.withMaps h p) = onNext (State.withMaps h p) (regSelWait op s) := by
  unfold regSelWait
  rw [unboundedPoll_withMaps]
  obtain ⟨_ | _ | _, _⟩ := unboundedPoll .txEmpty s <;> cases op <;> rfl

theorem btfWait_withMaps : btfWait (s.withMaps h p) = (btfWait s).withMaps h p := by
  simp only [btfWait_eq, oracleMatch_withMaps, State.withMaps_statusWord]
  split <;> rfl

theorem rxAfter_withMaps (last : Bool) : rxAfter last (s.withMaps h p) = (rxAfter last s).withMaps h p := by
  cases last <;> rfl

theorem rxTake_withMaps : rxTake (s.withMaps h p) = onNext (State.withMaps h p) (rxTake s) := by
  unfold rxTake
  simp only [State.withMaps_dataTaken, memWrite_withMaps, State.withMaps_idx, State.withMaps_dataByte,
    State.withMaps_lastByte]
  cases memWrite s.idx s.dataByte s.dataTaken with
  | next t => simp only [onNext_next, rxAfter_withMaps]
  | fault r => rfl
  | refused r => rfl

theorem txPut_withMaps : txPut (s.withMaps h p) = onNext (State.withMaps h p) (txPut s) := by
  unfold txPut
  simp only [memRead_withMaps, State.withMaps_idx]
  cases memRead s.idx s <;> rfl

/-! ### The steps of the sequencer, of the host and of the machine -/

theorem exec_withMaps (i : Instr) : exec i (s.withMaps h p) = onNext (State.withMaps h p) (exec i s) := by
  have hm : (s.withMaps h p).phase = s.phase := s.withMaps_phase h p
  cases hp : s.phase <;> rw [hp] at hm
  case idle => rw [exec_idle i _ hp, exec_idle i _ hm]; rfl
  case busWait => rw [exec_busWait i _ hp, exec_busWait i _ hm, busWait_withMaps]; rfl
  case start1 => rw [exec_start1 i _ hp, exec_start1 i _ hm]; rfl
  case start1Wait => rw [exec_start1Wait i _ hp, exec_start1Wait i _ hm, start1Wait, waitFor_withMaps]; rfl
  case addrW => rw [exec_addrW i _ hp, exec_addrW i _ hm]; rfl
  case addrWWait => rw [exec_addrWWait i _ hp, exec_addrWWait i _ hm, addrWWait_withMaps]; rfl
  case regSel => rw [exec_regSel i _ hp, exec_regSel i _ hm]; rfl
  case regSelWait => rw [exec_regSelWait i _ hp, exec_regSelWait i _ hm, regSelWait_withMaps]
  case ackCfg => rw [exec_ackCfg i _ hp, exec_ackCfg i _ hm]; rfl
  case start2 => rw [exec_start2 i _ hp, exec_start2 i _ hm]; rfl
  case start2Wait => rw [exec_start2Wait i _ hp, exec_start2Wait i _ hm, start2Wait, waitFor_withMaps]; rfl
  case addrR => rw [exec_addrR i _ hp, exec_addrR i _ hm]; rfl
  case addrRWait => rw [exec_addrRWait i _ hp, exec_addrRWait i _ hm, addrRWait_withMaps]; rfl
  case rxWait => rw [exec_rxWait i _ hp, exec_rxWait i _ hm, rxWait, waitFor_withMaps]; rfl
  case rxTake => rw [exec_rxTake i _ hp, exec_rxTake i _ hm, rxTake_withMaps]
  case txWait => rw [exec_txWait i _ hp, exec_txWait i _ hm, txWait, waitFor_withMaps]; rfl
  case txPut => rw [exec_txPut i _ hp, exec_txPut i _ hm, txPut_withMaps]
  case btfWait => rw [exec_btfWait i _ hp, exec_btfWait i _ hm, btfWait_withMaps]; rfl
  case stop => rw [exec_stop i _ hp, exec_stop i _ hm]; rfl

theorem sequencerStep_withMaps :
    sequencerStep (s.withMaps h p) = onNext (State.withMaps h p) (sequencerStep s) := by
  by_cases hp : s.phase = .idle
  · rw [sequencerStep_idle hp, sequencerStep_idle (s := s.withMaps h p) hp, onNext_next]
  · rw [sequencerStep_busy hp, sequencerStep_busy (s := s.withMaps h p) hp, State.withMaps_running, exec_withMaps]

theorem offer_withMaps (w : CommandWord) : offer w (s.withMaps h p) = onNext (State.withMaps h p) (offer w s) := by
  by_cases hp : s.phase = .idle
  · cases hd : decode w with
    | ok i => rw [offer_accepted hp hd, offer_accepted (s := s.withMaps h p) hp hd, State.withMaps_note, exec_withMaps]
    | error r => rw [offer_illegal hd, offer_illegal hd]; rfl
  · rw [offer_busy w hp, offer_busy (s := s.withMaps h p) w hp]; rfl

theorem hostStep_withMaps (a : HostStep) :
    hostStep a (s.withMaps h p) = onNext (State.withMaps h p) (hostStep a s) := by
  cases a with
  | run => exact sequencerStep_withMaps h p s
  | offer w => exact offer_withMaps h p s w
  | readStatus => rfl
  | bufWrite i v => exact hostBufWrite_withMaps h p s i v
  | bufRead i => exact hostBufRead_withMaps h p s i
  | bufSize n => rfl
  | reset => rfl

/-- The machine's step commutes with moving its registers. -/
theorem step_withMaps : step (s.withMaps h p) = onNext (State.withMaps h p) (step s) := by
  cases hs : s.script with
  | nil => rw [step_silent hs, step_silent (s := s.withMaps h p) hs, sequencerStep_withMaps]
  | cons a rest =>
    rw [step_host hs, step_host (s := s.withMaps h p) hs]
    exact hostStep_withMaps h p { s with script := rest } a

end

/-- Settles O52: the step of the moved machine is the machine's own step, moved. -/
theorem addressMapsAffectNoStep : Obligations.AddressMapsAffectNoStep := by
  intro s h p
  refine ⟨fun t ht => ?_, fun f hf => ?_, fun r hr => ?_, s.withMaps_statusPort h p, s.withMaps_cmdReady h p⟩
  · rw [step_withMaps, ht, onNext_next]
  · rw [step_withMaps, hf, onNext_fault]
  · rw [step_withMaps, hr, onNext_refused]

end Sys2Proof.Machine
end

