-- ==== Sys2Proof/Proofs/StepCases.lean ====
section
/-! What one step of any agent can do, said once, and what each sequencer step leaves unchanged (spec/10_state.md R13 to R22, spec/40_oracle_and_primitives.md R70, R91). -/

namespace Sys2Proof.Machine

/-! ### The step of the machine -/

/-- The state after the host's next scripted step is taken off the script; nothing changes when the script is empty. -/
def State.unscripted (s : State) : State := { s with script := s.script.tail }

theorem State.unscripted_of_silent {s : State} (h : s.script = []) : s.unscripted = s := by
  cases s; subst h; rfl

/-- All a step of the sequencer can do: nothing in IDLE, else one row of the transition table. -/
theorem sequencerStep_cases {s t : State} (h : sequencerStep s = .next t) :
    (s.phase = .idle ∧ t = s) ∨ (s.phase ≠ .idle ∧ PhaseStep s.op s t) := by
  by_cases hp : s.phase = .idle
  · rw [sequencerStep_idle hp] at h
    injection h with h
    exact .inl ⟨hp, h.symm⟩
  · rw [sequencerStep_busy hp] at h
    exact .inr ⟨hp, State.running_op s ▸ exec_inversion h hp⟩

/-- All a step of the machine can do, whichever agent takes it (R70). -/
theorem step_cases {s t : State} (h : step s = .next t) :
    t = s.unscripted ∨ (s.phase ≠ .idle ∧ PhaseStep s.op s.unscripted t) ∨ ∃ a, HostEffect s.unscripted a t := by
  cases hs : s.script with
  | nil =>
    rw [step_silent hs] at h
    rw [State.unscripted_of_silent hs]
    exact (sequencerStep_cases h).imp And.right .inl
  | cons a rest =>
    have hu : { s with script := rest } = s.unscripted := by simp [State.unscripted, hs]
    rw [step_host hs, hu] at h
    by_cases hr : a = .run
    · subst hr
      exact (sequencerStep_cases (s := s.unscripted) h).imp And.right .inl
    · exact .inr (.inr ⟨a, hostStep_inversion h hr⟩)

/-! ### What a sequencer step leaves unchanged -/

section
variable {op : Op} {s t : State}

theorem PhaseStep.params_eq (h : PhaseStep op s t) : t.params = s.params := by
  cases h <;> rfl

theorem PhaseStep.hostSide_eq (h : PhaseStep op s t) :
    t.bufferSize = s.bufferSize ∧ t.script = s.script ∧ t.hostLog = s.hostLog := by
  cases h <;> exact ⟨rfl, rfl, rfl⟩

/-- Only Accept writes the latches (R14 to R17). -/
theorem PhaseStep.latches_eq (h : PhaseStep op s t) :
    t.op = s.op ∧ t.addr = s.addr ∧ t.reg = s.reg ∧ t.len = s.len := by
  cases h <;> exact ⟨rfl, rfl, rfl, rfl⟩

/-- Only the byte transfers move IDX (R18). -/
theorem PhaseStep.idx_eq (h : PhaseStep op s t) (hrx : s.phase ≠ .rxTake) (htx : s.phase ≠ .txPut) : t.idx = s.idx := by
  cases h with
  | rxTake_last hp | rxTake_more hp => exact absurd hp hrx
  | txPut hp => exact absurd hp htx
  | _ => rfl

theorem ne_of_not_bounded {p : Phase} (h : boundedWait p = false) : p ≠ .busWait ∧ p ≠ .addrWWait ∧ p ≠ .addrRWait := by
  refine ⟨?_, ?_, ?_⟩ <;> rintro rfl <;> cases h

/-- Only the address phases load TMO and only the bounded waits count it down (R19). -/
theorem PhaseStep.tmo_eq (h : PhaseStep op s t) (hw : s.phase ≠ .addrW) (hr : s.phase ≠ .addrR)
    (hb : boundedWait s.phase = false) : t.tmo = s.tmo := by
  obtain ⟨hbus, haw, har⟩ := ne_of_not_bounded hb
  cases h with
  | addrW hp => exact absurd hp hw
  | addrR hp => exact absurd hp hr
  | bounded_pending _ hp => rw [hp] at hb; cases hb
  | busWait_expired hp => exact absurd hp hbus
  | addrWWait_expired_ping hp | addrWWait_expired hp => exact absurd hp haw
  | addrRWait_expired hp => exact absurd hp har
  | _ => rfl

/-- Only the bounded waits, RX_TAKE and BTF_WAIT decide an outcome (R21). -/
theorem PhaseStep.result_eq (h : PhaseStep op s t) (hb : boundedWait s.phase = false) (hrx : s.phase ≠ .rxTake)
    (hbtf : s.phase ≠ .btfWait) : t.result = s.result := by
  obtain ⟨hbus, haw, har⟩ := ne_of_not_bounded hb
  cases h with
  | busWait_spent hp | busWait_expired hp => exact absurd hp hbus
  | addrWWait_spent_ping hp | addrWWait_spent hp | addrWWait_satisfied_ping hp | addrWWait_expired_ping hp
  | addrWWait_expired hp => exact absurd hp haw
  | addrRWait_spent hp | addrRWait_satisfied_empty hp | addrRWait_expired hp => exact absurd hp har
  | rxTake_last hp => exact absurd hp hrx
  | btfWait_satisfied hp => exact absurd hp hbtf
  | _ => rfl

/-- Only the aborts of the bounded waits and STOP finish an operation (R22). -/
theorem PhaseStep.done_eq (h : PhaseStep op s t) (hb : boundedWait s.phase = false) (hst : s.phase ≠ .stop) :
    t.done = s.done := by
  obtain ⟨hbus, haw, har⟩ := ne_of_not_bounded hb
  cases h with
  | busWait_spent hp | busWait_expired hp => exact absurd hp hbus
  | addrWWait_spent hp | addrWWait_expired hp => exact absurd hp haw
  | addrRWait_spent hp | addrRWait_expired hp => exact absurd hp har
  | stop hp => exact absurd hp hst
  | _ => rfl

end

theorem HostEffect.params_eq {s t : State} {a : HostStep} (h : HostEffect s a t) : t.params = s.params := by
  cases h <;> rfl

/-! ### The action of a sequencer step -/

/-- The action a sequencer step performs (R91): none where a bounded poll is entered with TMO = 0. -/
def State.action (s : State) : Option Action :=
  match s.phase with
  | .idle => none
  | .busWait | .addrWWait | .addrRWait => if s.tmo = 0#32 then none else some (.statusRd s.statusWord)
  | .start1Wait | .regSelWait | .start2Wait | .rxWait | .txWait | .btfWait => some (.statusRd s.statusWord)
  | .start1 | .start2 => some .start
  | .addrW => some (.dataWr (wire s.addr .write))
  | .regSel => some (.dataWr s.reg)
  | .ackCfg => some .ackEn
  | .addrR => some (.dataWr (wire s.addr .read))
  | .rxTake => some (.dataRd s.dataByte)
  | .txPut => some (.dataWr (Memory.get s.buffer s.idx.toNat))
  | .stop => some .stop

theorem State.action_of_bounded {s : State} (h : boundedWait s.phase = true) :
    s.action = if s.tmo = 0#32 then none else some (.statusRd s.statusWord) := by
  rcases (boundedWait_iff _).1 h with hp | hp | hp <;> rw [State.action, hp]

theorem State.action_of_unbounded {s : State} (h : unboundedWait s.phase = true) :
    s.action = some (.statusRd s.statusWord) := by
  rcases (unboundedWait_iff _).1 h with hp | hp | hp | hp | hp | hp <;> rw [State.action, hp]

/-- A sequencer step adds its action to the trace, and nothing else. -/
theorem PhaseStep.trace_eq {op : Op} {s t : State} (h : PhaseStep op s t) : t.trace = s.action.toList ++ s.trace := by
  cases h with
  | bounded_pending e hb _ h0 => rw [State.action_of_bounded hb, if_neg h0]; rfl
  | unbounded_pending e hb => rw [State.action_of_unbounded hb]; rfl
  | busWait_spent hp h0 | busWait_satisfied hp h0 | busWait_expired hp h0
  | addrWWait_spent_ping hp h0 | addrWWait_spent hp h0 | addrWWait_satisfied_ping hp h0 | addrWWait_satisfied hp h0
  | addrWWait_expired_ping hp h0 | addrWWait_expired hp h0
  | addrRWait_spent hp h0 | addrRWait_satisfied_empty hp h0 | addrRWait_satisfied hp h0 | addrRWait_expired hp h0 =>
    simp [State.action, hp, h0]
  | start1 hp | start1Wait_satisfied hp | addrW hp | regSel hp | regSelWait_read hp | regSelWait_write hp | ackCfg hp
  | start2 hp | start2Wait_satisfied hp | addrR hp | rxWait_satisfied hp | rxTake_last hp | rxTake_more hp
  | txWait_satisfied hp | txPut hp | btfWait_satisfied hp | stop hp => rw [State.action, hp]; rfl

end Sys2Proof.Machine
end

