-- ==== Sys2Proof/Proofs/Registers.lean ====
section
/-! The registers and the peripheral's controls (spec/10_state.md): which steps write each, the codes of PHASE, and what the status port shows. -/

namespace Sys2Proof.Machine

/-! ### The frame of the commands -/

/-- Settles O25: Accept writes every register but RESULT, and the other steps write as `PhaseStep` says. -/
theorem execFrameOfRegisters : Obligations.ExecFrameOfRegisters := by
  intro i s t h
  by_cases hp : s.phase = .idle
  · rw [exec_idle i s hp] at h
    injection h with h
    subst h
    simp [hp]
  · have hstep := exec_inversion h hp
    obtain ⟨hsize, hscript, hlog⟩ := hstep.hostSide_eq
    exact ⟨hstep.params_eq, hsize, hscript, hlog, fun _ => hstep.latches_eq, fun _ => hstep.idx_eq,
      fun _ => hstep.tmo_eq, hstep.result_eq, fun _ => hstep.done_eq⟩

/-- Settles O32: neither the sequencer's steps nor the host's write the parameters, and the status port is made of other fields. -/
theorem parametersNeverChange : Obligations.ParametersNeverChange := by
  refine ⟨fun s t h => ?_, fun s p => rfl⟩
  obtain rfl | ⟨_, hstep⟩ | ⟨a, heffect⟩ := step_cases h
  · rfl
  · exact hstep.params_eq
  · exact heffect.params_eq

/-! ### RESULT -/

/-- The rows of the table that write RESULT, and what each writes (R21, R141). -/
theorem PhaseStep.result_cases {s t : State} (h : PhaseStep s.op s t) :
    t.result = s.result ∨
    (s.phase = .busWait ∧ t.result = .timeout ∧ t.phase = .idle) ∨
    (s.phase = .addrWWait ∧ (t.result = .noAck ∨ t.result = .ok ∧ s.op = .ping)) ∨
    (s.phase = .addrRWait ∧ (t.result = .noAck ∧ t.phase = .idle ∨ t.result = .ok ∧ s.len = 0#8)) ∨
    (s.phase = .rxTake ∧ t.result = .ok ∧ s.idx + 1#8 = s.len) ∨
    (s.phase = .btfWait ∧ t.result = .ok) := by
  cases h with
  | busWait_spent hp | busWait_expired hp => exact .inr (.inl ⟨hp, rfl, rfl⟩)
  | addrWWait_spent_ping hp | addrWWait_spent hp | addrWWait_expired_ping hp | addrWWait_expired hp =>
    exact .inr (.inr (.inl ⟨hp, .inl rfl⟩))
  | addrWWait_satisfied_ping hp _ hop => exact .inr (.inr (.inl ⟨hp, .inr ⟨rfl, hop⟩⟩))
  | addrRWait_spent hp | addrRWait_expired hp => exact .inr (.inr (.inr (.inl ⟨hp, .inl ⟨rfl, rfl⟩⟩)))
  | addrRWait_satisfied_empty hp _ hlen => exact .inr (.inr (.inr (.inl ⟨hp, .inr ⟨rfl, hlen⟩⟩)))
  | rxTake_last hp _ _ hlast => exact .inr (.inr (.inr (.inr (.inl ⟨hp, rfl, hlast⟩))))
  | btfWait_satisfied hp => exact .inr (.inr (.inr (.inr (.inr ⟨hp, rfl⟩))))
  | _ => exact .inl rfl

/-- Settles O31: an idle block stays as it is, and every other step that changes RESULT is a deciding row. -/
theorem resultIsWrittenByDecidingSteps : Obligations.ResultIsWrittenByDecidingSteps := by
  intro s t hs h hne
  rw [step_silent hs] at h
  obtain ⟨_, rfl⟩ | ⟨_, hstep⟩ := sequencerStep_cases h
  · exact absurd rfl hne
  · exact hstep.result_cases.resolve_left hne

/-! ### The peripheral's controls and data register -/

/-- Settles O28: the step puts its action in front of the trace, and only START, STOP, ACK_EN and DATA_WR move the views. -/
theorem peripheralControlsFollowTheActions : Obligations.PeripheralControlsFollowTheActions := by
  intro s t hs hb h
  have htrace := (step_inversion h hs hb).trace_eq
  rw [htrace]
  cases hp : s.phase with
  | busWait | addrWWait | addrRWait =>
    by_cases h0 : s.tmo = 0#32 <;> simp [State.action, hp, h0, busHeld, ackTurnedOn, lastDataWritten]
  | _ => simp [State.action, hp, busHeld, ackTurnedOn, lastDataWritten]

/-! ### The phase codes and the status port -/

/-- Settles O7: the list of the nineteen phases has nothing beyond the code 18. -/
theorem phaseCodesAreOneToOne : Obligations.PhaseCodesAreOneToOne := by
  refine ⟨fun p => ⟨Phase.ofCode_code p, ?_⟩, fun c hc => List.getElem?_eq_none hc⟩
  cases p <;> decide

section
variable (s : State)

theorem State.statusPort_busy : s.statusPort.extractLsb' 0 1 = BitVec.ofBool s.busy :=
  BitVec.extractLsb'_append_eq_right

theorem State.statusPort_done : s.statusPort.extractLsb' 1 1 = BitVec.ofBool s.done :=
  (BitVec.extractLsb'_append_eq_of_le (Nat.le_refl 1)).trans BitVec.extractLsb'_append_eq_right

theorem State.statusPort_result : s.statusPort.extractLsb' 2 2 = s.result.code :=
  (BitVec.extractLsb'_append_eq_of_le (by decide)).trans BitVec.extractLsb'_append_eq_left

end

/-- Settles O33: each field of the status port is its flag, and the host's read only notes the value. -/
theorem statusPortShowsTheFlags : Obligations.StatusPortShowsTheFlags := by
  intro s
  refine ⟨?_, ?_, s.statusPort_result, fun rest hs => by rw [step_host hs]; rfl⟩
  · rw [s.statusPort_busy, State.busy]
    by_cases hp : s.phase = .idle <;> simp [hp]
  · rw [s.statusPort_done]
    cases s.done <;> simp

end Sys2Proof.Machine
end

