-- ==== Sys2Proof/Proofs/Invariant.lean ====
section
/-! The invariant (spec/10_state.md R18, R19, R21, R22, R32; spec/40_oracle_and_primitives.md R88): it holds at reset, each row of the transition table keeps each of its parts, and so does each step of the host. -/

namespace Sys2Proof.Machine

/-- Settles O37: PHASE and DONE as `State.reset` gives them, and the two flags computed from PHASE. -/
theorem resetStateIsIdle : Obligations.ResetStateIsIdle := ⟨rfl, rfl, rfl, rfl⟩

/-- Settles O39: the reset buffer is canonical, and in IDLE the invariant asks nothing of the registers. -/
theorem resetSatisfiesInvariant : Obligations.ResetSatisfiesInvariant :=
  ⟨Memory.wf_reset, rfl, rfl, rfl, rfl, rfl⟩

section
variable {s t : State}

/-! ### The rows of the table -/

/-- The first byte of a transfer that moves any. -/
theorem index_lt_of_zero {a b : Byte} (ha : a = 0#8) (hb : b ≠ 0#8) : a.toNat < b.toNat := by
  bv_omega

/-- The byte after one that is not the last. -/
theorem index_succ_lt {a b : Byte} (h : a.toNat < b.toNat) (hne : a + 1#8 ≠ b) : (a + 1#8).toNat < b.toNat := by
  have hsucc := index_succ_toNat h
  have hne' : (a + 1#8).toNat ≠ b.toNat := BitVec.toNat_ne_iff_ne.2 hne
  omega

/-- Only RX_TAKE stores, and inside the buffer space. -/
theorem PhaseStep.wf_buffer (h : PhaseStep s.op s t) (hm : Memory.wf s.buffer) : Memory.wf t.buffer := by
  cases h with
  | rxTake_last _ hi | rxTake_more _ hi => exact Memory.wf_put hm hi _
  | _ => exact hm

/-- Each row stays inside the phases of its operation (R88). -/
theorem PhaseStep.phaseOf (h : PhaseStep s.op s t) (hs : phaseOf s.op s.phase = true) : phaseOf t.op t.phase = true := by
  cases h with
  | bounded_pending | unbounded_pending => exact hs
  | regSelWait_read hp hop => split <;> simp [Machine.phaseOf, hop]
  | regSelWait_write hp hop => split <;> simp [Machine.phaseOf, hop]
  | txPut hp =>
    rw [hp] at hs
    split <;> exact hs
  | addrWWait_satisfied hp _ hop => simpa [Machine.phaseOf] using hop
  | regSel hp | ackCfg hp | start2 hp | start2Wait_satisfied hp | addrR hp | addrRWait_satisfied hp | rxWait_satisfied hp
  | rxTake_more hp | txWait_satisfied hp => rwa [hp] at hs
  | _ => rfl

/-- IDX stays 0 before the byte loop, rises by one below LEN inside it, and ends at LEN (R18). -/
theorem PhaseStep.indexInRange (h : PhaseStep s.op s t) (hop : Machine.phaseOf s.op s.phase = true)
    (hs : indexInRange s = true) : indexInRange t = true := by
  cases h with
  | bounded_pending | unbounded_pending => exact hs
  | busWait_satisfied hp | start1 hp | start1Wait_satisfied hp | addrW hp | addrWWait_satisfied hp | regSel hp
  | start2 hp | start2Wait_satisfied hp | addrR hp | rxWait_satisfied hp | txWait_satisfied hp =>
    rwa [Machine.indexInRange, hp] at hs
  | addrWWait_spent_ping hp _ hping | addrWWait_satisfied_ping hp _ hping | addrWWait_expired_ping hp _ hping =>
    simpa [Machine.indexInRange, hp, hping] using hs
  | regSelWait_read hp =>
    have hidx : s.idx = 0#8 := by simpa [Machine.indexInRange, hp] using hs
    split <;> simp [Machine.indexInRange, *]
  | regSelWait_write hp =>
    have hidx : s.idx = 0#8 := by simpa [Machine.indexInRange, hp] using hs
    split
    · simp [Machine.indexInRange, *]
    · exact decide_eq_true (index_lt_of_zero hidx ‹_›)
  | ackCfg hp =>
    rw [Machine.indexInRange, hp, Bool.and_eq_true] at hs
    exact hs.1
  | addrRWait_satisfied_empty hp _ hlen =>
    have hread : s.op = .read := by simpa [Machine.phaseOf, hp] using hop
    simpa [Machine.indexInRange, hp, hread, hlen] using hs
  | addrRWait_satisfied hp _ hlen =>
    have hidx : s.idx = 0#8 := by simpa [Machine.indexInRange, hp] using hs
    exact decide_eq_true (index_lt_of_zero hidx hlen)
  | rxTake_last hp _ _ hlast =>
    have hread : s.op = .read := by simpa [Machine.phaseOf, hp] using hop
    simp [Machine.indexInRange, hread, hlast]
  | rxTake_more hp _ _ hmore =>
    have hlt : s.idx.toNat < s.len.toNat := by simpa [Machine.indexInRange, hp] using hs
    exact decide_eq_true (index_succ_lt hlt hmore)
  | txPut hp =>
    have hlt : s.idx.toNat < s.len.toNat := by simpa [Machine.indexInRange, hp] using hs
    split
    · simp [Machine.indexInRange, *]
    · exact decide_eq_true (index_succ_lt hlt ‹_›)
  | btfWait_satisfied hp =>
    have hwrite : s.op = .write := by simpa [Machine.phaseOf, hp] using hop
    simpa [Machine.indexInRange, hp, hwrite] using hs
  | _ => rfl

/-- TMO is loaded with the budget of its wait and only counted down (R19). -/
theorem PhaseStep.counterInBudget (h : PhaseStep s.op s t) (hs : counterInBudget s = true) : counterInBudget t = true := by
  cases h with
  | bounded_pending _ hb _ h0 =>
    have hpred : (s.tmo - 1#32).toNat ≤ s.tmo.toNat := by
      rw [counter_pred_toNat h0]
      exact Nat.sub_le _ _
    rcases (boundedWait_iff _).1 hb with hp | hp | hp <;>
      simp only [Machine.counterInBudget, State.load_phase, State.sampled_phase, hp, decide_eq_true_eq] at hs ⊢ <;>
      exact hpred.trans hs
  | unbounded_pending => exact hs
  | addrW | addrR => exact decide_eq_true (Nat.le_refl _)
  | regSelWait_read | regSelWait_write | txPut => split <;> rfl
  | _ => rfl

theorem flagsAgree_of_not_stop (hd : s.done = false) (hp : s.phase ≠ .stop) : flagsAgree s = true := by
  simp [flagsAgree, hd, hp]

/-- DONE is 0 until an operation ends, and STOP is entered with an outcome of the operation (R21, R22, R151). -/
theorem PhaseStep.flagsAgree (h : PhaseStep s.op s t) (hb : s.phase ≠ .idle) (hs : flagsAgree s = true) :
    flagsAgree t = true := by
  have hdone : s.done = false := by
    rw [Machine.flagsAgree, Bool.and_eq_true] at hs
    simpa [hb] using hs.1
  cases h with
  | bounded_pending | unbounded_pending => exact hs
  | busWait_spent | busWait_expired | addrWWait_spent | addrWWait_expired | addrRWait_spent | addrRWait_expired | stop => rfl
  | addrWWait_spent_ping _ _ hping | addrWWait_satisfied_ping _ _ hping | addrWWait_expired_ping _ _ hping =>
    simp [Machine.flagsAgree, hping, hdone]
  | addrRWait_satisfied_empty | rxTake_last | btfWait_satisfied => simp [Machine.flagsAgree, hdone]
  | regSelWait_read | regSelWait_write | txPut => split <;> exact flagsAgree_of_not_stop hdone nofun
  | _ => exact flagsAgree_of_not_stop hdone nofun

/-- START takes the bus before every phase that holds it, and only STOP, which ends the operation, releases it (R32). -/
theorem PhaseStep.busHeldWhileOpen (h : PhaseStep s.op s t) (hs : busHeldWhileOpen s = true) :
    busHeldWhileOpen t = true := by
  cases h with
  | bounded_pending | unbounded_pending => exact hs
  | start1Wait_satisfied hp | addrW hp | addrWWait_spent_ping hp | addrWWait_satisfied_ping hp | addrWWait_satisfied hp
  | addrWWait_expired_ping hp | regSel hp | ackCfg hp | start2Wait_satisfied hp | addrR hp | addrRWait_satisfied_empty hp
  | addrRWait_satisfied hp | rxWait_satisfied hp | rxTake_last hp | rxTake_more hp | txWait_satisfied hp
  | btfWait_satisfied hp =>
    rw [Machine.busHeldWhileOpen, hp] at hs
    exact hs
  | regSelWait_read hp | regSelWait_write hp | txPut hp =>
    rw [Machine.busHeldWhileOpen, hp] at hs
    split <;> exact hs
  | _ => rfl

/-! ### The steps of the agents -/

/-- A row of the table keeps the invariant. -/
theorem PhaseStep.stateInv (h : PhaseStep s.op s t) (hb : s.phase ≠ .idle) (hs : StateInv s) : StateInv t := by
  obtain ⟨hwf, hop, hidx, htmo, hflags, hbus⟩ := hs
  exact ⟨h.wf_buffer hwf, h.phaseOf hop, h.indexInRange hop hidx, h.counterInBudget htmo, h.flagsAgree hb hflags,
    h.busHeldWhileOpen hbus⟩

/-- A step of the host keeps the invariant: Accept and the reset input enter phases that ask little, a buffer write keeps
the canonical form, and the other steps touch nothing the invariant reads. -/
theorem HostEffect.stateInv {a : HostStep} (h : HostEffect s a t) (hs : StateInv s) : StateInv t := by
  obtain ⟨hwf, hrest⟩ := hs
  cases h with
  | accepted => exact ⟨hwf, rfl, rfl, decide_eq_true (Nat.le_refl _), rfl, rfl⟩
  | bufWrite i v hi => exact ⟨Memory.wf_put hwf hi v, hrest⟩
  | reset => exact ⟨hwf, rfl, rfl, rfl, rfl, rfl⟩
  | notAccepted | readStatus | bufRead | bufSize => exact ⟨hwf, hrest⟩

end

/-- Settles O40: every row of the table and every step of the host keep the invariant. -/
theorem stepKeepsInvariant : Obligations.StepKeepsInvariant := by
  intro s t hs h
  have hu : StateInv s.unscripted := hs
  obtain rfl | ⟨hb, hstep⟩ | ⟨a, heffect⟩ := step_cases h
  · exact hu
  · exact PhaseStep.stateInv (s := s.unscripted) hstep hb hu
  · exact heffect.stateInv hu

end Sys2Proof.Machine
end

