-- ==== Sys2Proof/Proofs/Buffer.lean ====
section
/-! The transfer buffer (spec/20_memory.md): what each agent's step leaves of it, the peripheral actions by phase (R40 to R44), and why a long enough buffer keeps the sequencer going. -/

namespace Sys2Proof.Machine

/-! ### The frame over the buffer -/

/-- Only RX_TAKE stores, and only at IDX (R37, R38). -/
theorem PhaseStep.get_buffer_eq {op : Op} {s t : State} (h : PhaseStep op s t) {j : Nat}
    (hj : ¬ (s.phase = .rxTake ∧ j = s.idx.toNat)) : Memory.get t.buffer j = Memory.get s.buffer j := by
  cases h with
  | rxTake_last hp | rxTake_more hp => exact Memory.get_put_of_ne _ fun hidx => hj ⟨hp, hidx⟩
  | _ => rfl

/-- Settles O26: Accept keeps the whole buffer, and of the rows of the table only RX_TAKE's store. -/
theorem execFrameOfMemory : Obligations.ExecFrameOfMemory := by
  intro i s t h j hj
  by_cases hp : s.phase = .idle
  · rw [exec_idle i s hp] at h
    injection h with h
    subst h
    rfl
  · exact (exec_inversion h hp).get_buffer_eq hj

/-! ### The host's steps -/

/-- Settles O35: the host's write is one `Memory.put`. -/
theorem hostBufferWriteIsSeen : Obligations.HostBufferWriteIsSeen := by
  intro s i v rest hs hi
  refine ⟨Memory.put s.buffer i.toNat v, ?_, fun hwf => Memory.get_put_self hwf _ v, fun j hj => Memory.get_put_of_ne v hj⟩
  rw [step_host hs]
  exact if_neg (Nat.not_le.2 hi)

/-- Settles O34: while the block is busy no word is accepted, and the other steps but reset write the host's own side only. -/
theorem hostCannotDisturbAnOperation : Obligations.HostCannotDisturbAnOperation := by
  intro s t a rest hs hrun hreset hbusy h
  rw [step_host hs] at h
  cases hostStep_inversion h hrun with
  | accepted w i hidle => exact absurd hidle hbusy
  | reset => exact absurd rfl hreset
  | bufWrite | bufSize => exact ⟨rfl, rfl, rfl, rfl, rfl, rfl, rfl, rfl, rfl, rfl, rfl, rfl, rfl, nofun⟩
  | notAccepted | readStatus | bufRead =>
    exact ⟨rfl, rfl, rfl, rfl, rfl, rfl, rfl, rfl, rfl, rfl, rfl, rfl, rfl, fun _ => ⟨rfl, rfl⟩⟩

/-! ### The actions by phase -/

/-- A silent host's step that adds an action to the trace is the sequencer's, and adds the action of its phase. -/
theorem action_of_trace_cons {s t : State} {a : Action} (hs : s.script = []) (h : step s = .next t)
    (htrace : t.trace = a :: s.trace) : s.action = some a := by
  rw [step_silent hs] at h
  obtain ⟨_, rfl⟩ | ⟨_, hstep⟩ := sequencerStep_cases h
  · exact absurd htrace.symm (List.cons_ne_self _ _)
  · rw [hstep.trace_eq] at htrace
    exact Option.toList_eq_singleton_iff.1 (List.append_cancel_right (cs := [a]) htrace)

/-- Settles O27: each phase has one action, and the invariant says which operations reach the phase (R88). -/
theorem actionsBelongToPhases : Obligations.ActionsBelongToPhases := by
  intro s t a hinv hs h htrace
  obtain ⟨_, hop, hidx, _⟩ := hinv
  have haction := action_of_trace_cons hs h htrace
  cases hp : s.phase <;> simp only [State.action, hp] at haction hop
  case idle => cases haction
  case busWait | addrWWait | addrRWait =>
    split at haction <;> cases haction
    exact ⟨rfl, nofun⟩
  case start1Wait | regSelWait | start2Wait | rxWait | txWait | btfWait =>
    cases haction
    exact ⟨rfl, nofun⟩
  case start1 =>
    cases haction
    exact .inl rfl
  case start2 =>
    cases haction
    exact .inr ⟨rfl, eq_of_beq hop⟩
  case addrW =>
    cases haction
    exact .inl ⟨rfl, rfl⟩
  case regSel =>
    cases haction
    exact .inr (.inl ⟨rfl, bne_iff_ne.1 hop, rfl⟩)
  case addrR =>
    cases haction
    exact .inr (.inr (.inl ⟨rfl, eq_of_beq hop, rfl⟩))
  case txPut =>
    cases haction
    exact .inr (.inr (.inr ⟨rfl, eq_of_beq hop, rfl⟩))
  case ackCfg =>
    cases haction
    rw [indexInRange, hp, Bool.and_eq_true, decide_eq_true_eq] at hidx
    exact ⟨rfl, eq_of_beq hop, hidx.2⟩
  case rxTake =>
    cases haction
    exact ⟨rfl, eq_of_beq hop, rfl⟩
  case stop =>
    cases haction
    rfl

/-! ### The sequencer never stops -/

/-- The command's step is a next state where the buffer has a byte at IDX for the byte transfers, and PING is not in
REGSEL_WAIT: no other phase can stop. -/
theorem exec_completes (i : Instr) (s : State) (hping : s.phase = .regSelWait → i.op ≠ .ping)
    (hbyte : s.phase = .rxTake ∨ s.phase = .txPut → s.idx.toNat < bufferSpace ∧ s.idx.toNat < s.bufferSize) :
    ∃ t, exec i s = .next t := by
  cases hp : s.phase with
  | idle => exact ⟨_, exec_idle i s hp⟩
  | busWait => exact ⟨_, exec_busWait i s hp⟩
  | start1 => exact ⟨_, exec_start1 i s hp⟩
  | start1Wait => exact ⟨_, exec_start1Wait i s hp⟩
  | addrW => exact ⟨_, exec_addrW i s hp⟩
  | addrWWait => exact ⟨_, exec_addrWWait i s hp⟩
  | regSel => exact ⟨_, exec_regSel i s hp⟩
  | regSelWait =>
    rw [exec_regSelWait i s hp]
    obtain ⟨_, e⟩ | ⟨_, hop, _⟩ | ⟨_, _, e⟩ | ⟨_, _, e⟩ := regSelWait_cases i.op s
    · exact ⟨_, e⟩
    · exact absurd hop (hping hp)
    · exact ⟨_, e⟩
    · exact ⟨_, e⟩
  | ackCfg => exact ⟨_, exec_ackCfg i s hp⟩
  | start2 => exact ⟨_, exec_start2 i s hp⟩
  | start2Wait => exact ⟨_, exec_start2Wait i s hp⟩
  | addrR => exact ⟨_, exec_addrR i s hp⟩
  | addrRWait => exact ⟨_, exec_addrRWait i s hp⟩
  | rxWait => exact ⟨_, exec_rxWait i s hp⟩
  | rxTake =>
    obtain ⟨hspace, hsize⟩ := hbyte (.inl hp)
    exact ⟨_, (exec_rxTake i s hp).trans ((rxTake_next_iff s _).2 ⟨hspace, hsize, rfl⟩)⟩
  | txWait => exact ⟨_, exec_txWait i s hp⟩
  | txPut =>
    obtain ⟨hspace, hsize⟩ := hbyte (.inr hp)
    exact ⟨_, (exec_txPut i s hp).trans ((txPut_next_iff s _).2 ⟨hspace, hsize, rfl⟩)⟩
  | btfWait => exact ⟨_, exec_btfWait i s hp⟩
  | stop => exact ⟨_, exec_stop i s hp⟩

/-- In the byte transfers IDX is below LEN (R18). -/
theorem idx_lt_len_of_transfer {s : State} (hs : indexInRange s = true) (hp : s.phase = .rxTake ∨ s.phase = .txPut) :
    s.idx.toNat < s.len.toNat := by
  rcases hp with hp | hp <;> simpa [indexInRange, hp] using hs

/-- Settles O41: the invariant keeps PING out of REGSEL_WAIT, and IDX below LEN where a byte is moved. -/
theorem sequencerNeverStops : Obligations.SequencerNeverStops := by
  intro s hinv hs hlen
  obtain ⟨_, hop, hidx, _⟩ := hinv
  rw [step_silent hs]
  by_cases hidle : s.phase = .idle
  · exact ⟨s, sequencerStep_idle hidle⟩
  rw [sequencerStep_busy hidle]
  refine exec_completes s.running s (fun hp => ?_) fun hp => ?_
  · rw [hp] at hop
    rw [State.running_op]
    exact bne_iff_ne.1 hop
  · have hlt := idx_lt_len_of_transfer hidx hp
    exact ⟨Nat.lt_of_lt_of_le hlt (Nat.le_of_lt_succ s.len.isLt), Nat.lt_of_lt_of_le hlt hlen⟩

end Sys2Proof.Machine
end

