-- ==== Sys2Proof/Proofs/Encoding.lean ====
section
/-! The decoder, the encoder and the address byte (spec/30_encoding.md R53 to R56, R61 to R68): a word is its five fields and the ignored bit 23, and the decoder reads the fields alone. -/

namespace Sys2Proof

/-! ### What the decoder answers -/

/-- The decoder rejects a word exactly where the reserved bits are not 0 or OP is the reserved code (R63). -/
theorem decode_error_iff (w : CommandWord) :
    (∃ r, decode w = .error r) ↔ rsvField w ≠ 0#6 ∨ opField w = 0b00#2 := by
  unfold decode
  by_cases hrsv : rsvField w = 0#6
  · cases ho : Op.ofCode (opField w) with
    | none => simp [hrsv, (Op.ofCode_eq_none_iff _).1 ho]
    | some o =>
      have hop : opField w ≠ 0#2 := mt (Op.ofCode_eq_none_iff _).2 (by simp [ho])
      simp [hrsv, hop]
  · simp [hrsv]

/-- Some command with this operation is read exactly where the reserved bits are 0 and OP is its code (R54). -/
theorem decode_op_iff (w : CommandWord) (op : Op) :
    (∃ i, decode w = .ok i ∧ i.op = op) ↔ rsvField w = 0#6 ∧ opField w = op.code := by
  constructor
  · rintro ⟨i, hd, rfl⟩
    obtain ⟨hrsv, hop, _⟩ := (decode_ok_iff w i).1 hd
    exact ⟨hrsv, hop⟩
  · rintro ⟨hrsv, hop⟩
    refine ⟨.ofFields op (addrField w).toNat (regField w).toNat (lenField w).toNat, ?_, Instr.ofFields_op _ _ _ _⟩
    simp [decode_ok_iff, hrsv, hop]

/-- The operands the decoder reads are as wide as their fields, so in range (R56). -/
theorem wellFormed_of_decode {w : CommandWord} {i : Instr} (h : decode w = .ok i) : i.wellFormed = true := by
  obtain ⟨_, _, haddr, hreg, hlen⟩ := (decode_ok_iff w i).1 h
  rw [Instr.wellFormed_iff, haddr, hreg, hlen]
  exact ⟨(addrField w).isLt, (regField w).isLt, (lenField w).isLt⟩

/-- The word of a well-formed command decodes to the command: both numbers are written in the same digits. -/
theorem decode_encode {i : Instr} (h : i.wellFormed = true) : decode (encode i) = .ok i := by
  obtain ⟨ha, hr, hn⟩ := (Instr.wellFormed_iff i).1 h
  have henc := encode_toNat h
  have hword := word_toNat (encode i)
  have hop := i.op.code.isLt
  have hrsvField := (rsvField (encode i)).isLt
  have hopField := (opField (encode i)).isLt
  have haddrField := (addrField (encode i)).isLt
  have hregField := (regField (encode i)).isLt
  have hlenField := (lenField (encode i)).isLt
  rw [decode_ok_iff, ← BitVec.toNat_inj, ← BitVec.toNat_inj, BitVec.toNat_ofNat]
  omega

/-! ### Bit 23 -/

/-- Bit 23 of a word as a number. -/
theorem toNat_ax (w : CommandWord) : w.toNat / 2 ^ 23 % 2 = (w.getLsbD 23).toNat :=
  (Nat.toNat_testBit w.toNat 23).symm

/-- The word of a well-formed command has 0 in the ignored bit (R55). -/
theorem encode_ax {i : Instr} (h : i.wellFormed = true) : (encode i).getLsbD 23 = false := by
  obtain ⟨ha, hr, hn⟩ := (Instr.wellFormed_iff i).1 h
  have henc := encode_toNat h
  have hax := toNat_ax (encode i)
  rw [← Bool.toNat_eq_zero]
  omega

/-- A word is determined by its five fields and bit 23 (R53). -/
theorem word_eq_of_fields {v w : CommandWord} (hrsv : rsvField v = rsvField w) (hop : opField v = opField w)
    (hax : v.getLsbD 23 = w.getLsbD 23) (haddr : addrField v = addrField w) (hreg : regField v = regField w)
    (hlen : lenField v = lenField w) : v = w := by
  rw [← BitVec.toNat_inj, word_toNat v, word_toNat w, toNat_ax, toNat_ax, hrsv, hop, hax, haddr, hreg, hlen]

/-- The decoder reads the five fields and nothing else of the word. -/
theorem decode_eq_of_fields {v w : CommandWord} (hrsv : rsvField v = rsvField w) (hop : opField v = opField w)
    (haddr : addrField v = addrField w) (hreg : regField v = regField w) (hlen : lenField v = lenField w) :
    decode v = decode w := by
  simp only [decode, hrsv, hop, haddr, hreg, hlen]

/-- Two words that decode to the same command differ in bit 23 at most. -/
theorem word_eq_of_decode {v w : CommandWord} {i : Instr} (hv : decode v = .ok i) (hw : decode w = .ok i)
    (hax : v.getLsbD 23 = w.getLsbD 23) : v = w := by
  obtain ⟨hrsv, hop, haddr, hreg, hlen⟩ := (decode_ok_iff v i).1 hv
  obtain ⟨hrsv', hop', haddr', hreg', hlen'⟩ := (decode_ok_iff w i).1 hw
  refine word_eq_of_fields (hrsv.trans hrsv'.symm) (hop.trans hop'.symm) hax ?_ ?_ ?_ <;> apply BitVec.eq_of_toNat_eq
  · exact haddr.symm.trans haddr'
  · exact hreg.symm.trans hreg'
  · exact hlen.symm.trans hlen'

/-- A mask that is 0 on a field flips none of its bits. -/
theorem extractLsb'_xor_of_zero {w m : CommandWord} {k n : Nat} (h : m.extractLsb' k n = 0#n) :
    (w ^^^ m).extractLsb' k n = w.extractLsb' k n := by
  rw [BitVec.extractLsb'_xor, h, BitVec.xor_zero]

/-- A mask that is 1 on a field keeps it. -/
theorem extractLsb'_and_of_allOnes {w m : CommandWord} {k n : Nat} (h : m.extractLsb' k n = BitVec.allOnes n) :
    (w &&& m).extractLsb' k n = w.extractLsb' k n := by
  rw [BitVec.extractLsb'_and, h, BitVec.and_allOnes]

/-- A mask that is 0 on a field clears it. -/
theorem extractLsb'_and_of_zero {w m : CommandWord} {k n : Nat} (h : m.extractLsb' k n = 0#n) :
    (w &&& m).extractLsb' k n = 0#n := by
  rw [BitVec.extractLsb'_and, h, BitVec.and_zero]

/-- Flipping bit 23 touches no field. -/
theorem decode_flip_ax (w : CommandWord) : decode (w ^^^ 0x00800000#32) = decode w :=
  decode_eq_of_fields (extractLsb'_xor_of_zero rfl) (extractLsb'_xor_of_zero rfl) (extractLsb'_xor_of_zero rfl)
    (extractLsb'_xor_of_zero rfl) (extractLsb'_xor_of_zero rfl)

/-- Clearing bit 23 touches no field. -/
theorem decode_clear_ax (w : CommandWord) : decode (w &&& 0xFF7FFFFF#32) = decode w :=
  decode_eq_of_fields (extractLsb'_and_of_allOnes rfl) (extractLsb'_and_of_allOnes rfl) (extractLsb'_and_of_allOnes rfl)
    (extractLsb'_and_of_allOnes rfl) (extractLsb'_and_of_allOnes rfl)

/-! ### The opcode map -/

/-- An entry of the opcode map has the operation's code in OP and 0 everywhere else (R62). -/
theorem opcodeMatch_fields (op : Op) :
    rsvField (opcodeMatch op) = 0#6 ∧ opField (opcodeMatch op) = op.code ∧ (opcodeMatch op).getLsbD 23 = false ∧
      addrField (opcodeMatch op) = 0#7 ∧ regField (opcodeMatch op) = 0#8 ∧ lenField (opcodeMatch op) = 0#8 := by
  cases op <;> exact ⟨rfl, rfl, rfl, rfl, rfl, rfl⟩

/-- A word's top byte is the opcode of an operation exactly where RSV is 0 and OP is its code (R62). -/
theorem topByte_eq_opcodeMatch_iff (w : CommandWord) (op : Op) :
    w &&& opcodeMask = opcodeMatch op ↔ rsvField w = 0#6 ∧ opField w = op.code := by
  have hrsv : rsvField (w &&& opcodeMask) = rsvField w := extractLsb'_and_of_allOnes rfl
  have hop : opField (w &&& opcodeMask) = opField w := extractLsb'_and_of_allOnes rfl
  obtain ⟨hrsv', hop', hax', haddr', hreg', hlen'⟩ := opcodeMatch_fields op
  constructor
  · intro h
    rw [← hrsv, ← hop, h]
    exact ⟨hrsv', hop'⟩
  · rintro ⟨h1, h2⟩
    refine word_eq_of_fields (hrsv.trans (h1.trans hrsv'.symm)) (hop.trans (h2.trans hop'.symm)) ?_
      ((extractLsb'_and_of_zero rfl).trans haddr'.symm) ((extractLsb'_and_of_zero rfl).trans hreg'.symm)
      ((extractLsb'_and_of_zero rfl).trans hlen'.symm)
    rw [hax', BitVec.getLsbD_and]
    exact Bool.and_false _

/-- The top byte alone selects the operation. -/
theorem decode_op_iff_topByte (w : CommandWord) (op : Op) :
    (∃ i, decode w = .ok i ∧ i.op = op) ↔ w &&& opcodeMask = opcodeMatch op :=
  (decode_op_iff w op).trans (topByte_eq_opcodeMatch_iff w op).symm

/-- A word is rejected exactly where its top byte selects no operation. -/
theorem decode_error_iff_topByte (w : CommandWord) :
    (∃ r, decode w = .error r) ↔ ∀ op, w &&& opcodeMask ≠ opcodeMatch op := by
  constructor
  · rintro ⟨r, hr⟩ op hop
    obtain ⟨i, hi, _⟩ := (decode_op_iff_topByte w op).2 hop
    rw [hr] at hi
    cases hi
  · intro h
    cases hd : decode w with
    | error r => exact ⟨r, rfl⟩
    | ok i => exact absurd ((decode_op_iff_topByte w i.op).1 ⟨i, hd, rfl⟩) (h i.op)

/-! ### The address byte -/

/-- The address byte as a number: twice the address, and the direction bit (R61). -/
theorem Machine.wire_toNat (a : Address) (d : Machine.Direction) :
    (Machine.wire a d).toNat = 2 * a.toNat + d.bit.toNat := by
  rw [Machine.wire, BitVec.toNat_append, ← Nat.shiftLeft_add_eq_or_of_lt d.bit.isLt, Nat.shiftLeft_eq]
  omega

/-- Bits 7:1 of the address byte are the address (R61). -/
theorem Machine.extractLsb'_wire (a : Address) (d : Machine.Direction) : (Machine.wire a d).extractLsb' 1 7 = a :=
  BitVec.extractLsb'_append_eq_left

/-! ### The obligations -/

/-- Settles O1: the decoder's fields are the digits the encoder writes. -/
theorem decodeOfEncode : Obligations.DecodeOfEncode := fun _ h => decode_encode h

/-- Settles O2: with bit 23 cleared the word still decodes to `i`, as `encode i` does. -/
theorem encodeOfDecode : Obligations.EncodeOfDecode := by
  intro w i h
  have hwf := wellFormed_of_decode h
  refine ⟨hwf, word_eq_of_decode (decode_encode hwf) ((decode_clear_ax w).trans h) ?_⟩
  rw [encode_ax hwf, BitVec.getLsbD_and]
  exact (Bool.and_false _).symm

/-- Settles O3: what is not rejected is read, and read field by field. -/
theorem decodingProcedureIsTotal : Obligations.DecodingProcedureIsTotal := by
  intro w
  split
  case isTrue hillegal => exact (decode_error_iff w).2 hillegal
  case isFalse hlegal =>
    cases hd : decode w with
    | error r => exact absurd ((decode_error_iff w).1 ⟨r, hd⟩) hlegal
    | ok i =>
      obtain ⟨_, hop, hfields⟩ := (decode_ok_iff w i).1 hd
      exact ⟨i, rfl, hop.symm, hfields⟩

/-- Settles O4: the top byte is RSV and OP, and these decide. -/
theorem topByteSelectsTheOperation : Obligations.TopByteSelectsTheOperation := by
  intro w
  refine ⟨decode_op_iff_topByte w .ping, decode_op_iff_topByte w .read, decode_op_iff_topByte w .write,
    (decode_error_iff_topByte w).trans ⟨fun h => ⟨h .ping, h .read, h .write⟩, fun ⟨hping, hread, hwrite⟩ op => ?_⟩⟩
  cases op with
  | ping => exact hping
  | read => exact hread
  | write => exact hwrite

/-- Settles O5, by running the decoder on each word. -/
theorem vectorWordsDecode : Obligations.VectorWordsDecode :=
  ⟨rfl, rfl, rfl, rfl, rfl, rfl⟩

/-- Settles O6: bit 23 is in no field. -/
theorem unusedTopBitIsIgnored : Obligations.UnusedTopBitIsIgnored := decode_flip_ax

/-- Settles O8, the examples by evaluation. -/
theorem wireByteIsAddressThenDirection : Obligations.WireByteIsAddressThenDirection :=
  ⟨fun a => ⟨Machine.wire_toNat a .write, Machine.wire_toNat a .read, Machine.extractLsb'_wire a .write,
    Machine.extractLsb'_wire a .read⟩, by decide⟩

end Sys2Proof
end

