-- ==== Sys2Proof/Proofs/Call.lean ====
section
/-! A blocking call on an idle block (spec/30_encoding.md R66): one accepted offer, then the wait for DONE. -/

namespace Sys2Proof.Machine

/-- The state after an idle block accepted the host's offer of a command, its script used up (R75). -/
def State.called (i : Instr) (s : State) : State :=
  (({ s with script := [] } : State).note (.offered (encode i) true)).accept i

/-- The offer of a well-formed command to an idle block is the step into `State.called`. -/
theorem step_offer_encode {s : State} {i : Instr} (hwf : i.wellFormed = true) (hp : s.phase = .idle) :
    step { s with script := [.offer (encode i)] } = .next (s.called i) :=
  step_offer (s := { s with script := [.offer (encode i)] }) rfl hp (decode_encode hwf)

/-- A call on an idle block with a silent host is the wait for DONE after Accept. -/
theorem call_eq_waitUntil {s : State} {i : Instr} (hwf : i.wellFormed = true) (hp : s.phase = .idle)
    (hs : s.script = []) (patience : Nat) :
    call patience i s = waitUntil State.returned patience (s.called i) := by
  refine call_of_idle hp (decode_encode hwf) ?_ patience
  rw [hs]
  exact step_offer_encode hwf hp

/-- Settles O53: the run after the offer is the run the call waits on. -/
theorem blockingCallReturnsTheResult : Obligations.BlockingCallReturnsTheResult := by
  intro s i patience hwf hp hs
  have hrun (k : Nat) : run (k + 1) { s with script := [.offer (encode i)] } = run k (s.called i) :=
    run_succ_of_step (step_offer_encode hwf hp)
  have hscript : (s.called i).script = [] := rfl
  rw [call_eq_waitUntil hwf hp hs]
  refine ⟨fun k t r hk ht hr => ?_, fun t ht hr => ?_, fun t r h => ?_⟩
  · rw [hrun] at ht
    exact waitUntil_returned_of_run hscript ht hr hk
  · rw [hrun] at ht
    exact waitUntil_returned_of_pending hscript ht hr
  · obtain ⟨hseen, hsilent, hlog, _⟩ := waitUntil_finished hscript h
    obtain ⟨hidle, hdone, hresult⟩ := State.returned_eq_some.1 hseen
    exact ⟨hidle, hdone, hresult, hsilent, hlog⟩

end Sys2Proof.Machine
end

