-- ==== Sys2Proof/Proofs/Accept.lean ====
section
/-! The oracle's verdict (spec/40_oracle_and_primitives.md R72), Accept (R75), and which command a step of the machine runs (R70). -/

namespace Sys2Proof.Machine

/-! ### The oracle -/

theorem pattern_eq_none_iff (p : Params) (e : Event) : p.pattern e = none ↔ e = .busIdle := by
  cases e <;> simp [Params.pattern]

theorem oracleMatch_of_pattern {p : Params} {e : Event} {pat : StatusWord} (h : p.pattern e = some pat)
    (w : StatusWord) : oracleMatch p e w = satisfies pat w := by
  rw [oracleMatch, h]

/-- Settles O9: an event with a pattern is that pattern's verdict, and only BUS_IDLE has none. -/
theorem oracleMatchesPatternBits : Obligations.OracleMatchesPatternBits := by
  intro p w
  refine ⟨fun e pat h => ?_, ?_, pattern_eq_none_iff p⟩
  · rw [oracleMatch_of_pattern h]
    exact satisfies_iff pat w
  · rw [oracleMatch_busIdle, Bool.not_eq_true', Bool.not_eq_true]

/-! ### Accept -/

/-- The latches take over the fields of the word as they are (R75). -/
theorem accept_of_decode {w : CommandWord} {i : Instr} (hd : decode w = .ok i) (s : State) :
    s.accept i = { s with
      op := i.op
      addr := addrField w
      reg := regField w
      len := lenField w
      idx := 0#8
      tmo := s.params.tIdle
      done := false
      phase := .busWait } := by
  obtain ⟨_, _, haddr, hreg, hlen⟩ := (decode_ok_iff w i).1 hd
  simp [State.accept, State.latch, haddr, hreg, hlen]

/-- The decoder reads a word or rejects it, and no word is both. -/
theorem decode_legal_iff (w : CommandWord) :
    (∃ i, decode w = .ok i) ↔ rsvField w = 0#6 ∧ opField w ≠ 0b00#2 := by
  rw [← not_iff_not, not_and_or, not_not, ← ne_eq, ← decode_error_iff]
  cases decode w <;> simp

/-- An offer that is not accepted changes only what the host sees (R63). -/
theorem step_offer_refused {s : State} {w : CommandWord} {rest : List HostStep} (hs : s.script = .offer w :: rest)
    (h : s.phase ≠ .idle ∨ ∃ r, decode w = .error r) :
    step s = .next (({ s with script := rest } : State).note (.offered w false)) := by
  rw [step_host hs]
  obtain hbusy | ⟨r, hr⟩ := h
  · exact offer_busy (s := { s with script := rest }) w hbusy
  · exact offer_illegal hr

/-- Settles O10: what is not accepted is offered to a busy block or illegal. -/
theorem offerIsAcceptedOrChangesNothing : Obligations.OfferIsAcceptedOrChangesNothing := by
  intro s w rest hs
  split
  case isTrue h =>
    obtain ⟨hidle, hlegal⟩ := h
    obtain ⟨i, hd⟩ := (decode_legal_iff w).2 hlegal
    obtain ⟨_, hop, _⟩ := (decode_ok_iff w i).1 hd
    refine ⟨i.op, hop.symm, ?_⟩
    rw [step_offer hs hidle hd, accept_of_decode hd]
    rfl
  case isFalse h =>
    refine step_offer_refused hs ?_
    by_cases hidle : s.phase = .idle
    · have hillegal : ¬ ∃ i, decode w = .ok i := fun hok => h ⟨hidle, (decode_legal_iff w).1 hok⟩
      cases hd : decode w with
      | ok i => exact absurd ⟨i, hd⟩ hillegal
      | error r => exact .inr ⟨r, rfl⟩
    · exact .inl hidle

/-- Settles O13: the width of each latch is that of its operand's range. -/
theorem everyCommandStartsByAccept : Obligations.EveryCommandStartsByAccept := by
  intro i s hp
  refine ⟨exec_idle i s hp, fun hwf => ?_⟩
  obtain ⟨haddr, hreg, hlen⟩ := (Instr.wellFormed_iff i).1 hwf
  simp only [BitVec.toNat_ofNat]
  omega

/-! ### The command a step runs -/

/-- The command the latches hold is in range, the latches being as wide as the operands (R14 to R17). -/
theorem State.running_wellFormed (s : State) : s.running.wellFormed = true := by
  rw [Instr.wellFormed_iff, State.running_addr, State.running_reg, State.running_len]
  exact ⟨s.addr.isLt, s.reg.isLt, s.len.isLt⟩

/-- Settles O11: the decoder's answer is the command whose Accept runs. -/
theorem stepRunsTheOfferedCommand : Obligations.StepRunsTheOfferedCommand := by
  intro s w rest i hs hidle hd
  rw [step_host hs]
  exact offer_accepted (s := { s with script := rest }) hidle hd

/-- Settles O12: with a silent host or its leave, the step is the sequencer's. -/
theorem stepRunsTheLatchedCommand : Obligations.StepRunsTheLatchedCommand := by
  intro s
  refine ⟨step_running, fun rest hs hb => ?_, fun hs hp => ?_, fun rest hs hp => ?_, s.running_op, s.running_addr,
    s.running_reg, s.running_len, s.running_wellFormed⟩
  · rw [step_host hs]
    exact sequencerStep_busy (s := { s with script := rest }) hb
  · rw [step_silent hs, sequencerStep_idle hp]
  · rw [step_host hs]
    exact sequencerStep_idle (s := { s with script := rest }) hp

end Sys2Proof.Machine
end

