-- ==== Sys2Proof/Proofs/PhaseRules.lean ====
section
/-! The step of each shared phase and of each wait (spec/40_oracle_and_primitives.md R76 to R86, R109, R111, R127, R129), the one action of a sequencer step (R91), and its next phase (R88). -/

namespace Sys2Proof.Machine

/-! ### The phases with one outcome -/

/-- Settles O14: the three action phases have no choice. -/
theorem sharedActionPhases : Obligations.SharedActionPhases := fun i s =>
  ⟨exec_start1 i s, fun hp => ⟨wire s.addr .write, wire_toNat s.addr .write, exec_addrW i s hp⟩,
    fun hp _ => exec_regSel i s hp⟩

/-- Settles O15: STOP is one action and Finish. -/
theorem stopPhaseFinishes : Obligations.StopPhaseFinishes := exec_stop

/-! ### The waits -/

theorem counter_ne_zero_of_eq_one {n : Counter} (h : n = 1#32) : n ≠ 0#32 := by
  rintro rfl
  cases h

/-- Settles O16: the four cases of the bounded poll. -/
theorem busWaitStep : Obligations.BusWaitStep := by
  intro i s hp
  rw [exec_busWait i s hp]
  obtain ⟨h0, e⟩ | ⟨h0, hm, e⟩ | ⟨h1, hm, e⟩ | ⟨h0, h1, hm, e⟩ := busWait_cases s
  · rw [e, if_pos h0]
    rfl
  · rw [e, if_neg h0, if_pos hm]
    rfl
  · rw [e, if_neg (counter_ne_zero_of_eq_one h1), if_neg (ne_true_of_eq_false hm), if_pos h1]
    rfl
  · rw [e, if_neg h0, if_neg (ne_true_of_eq_false hm), if_neg h1]
    rfl

/-- Settles O17: the four cases of the bounded poll, each with PING's outcome and the others'. -/
theorem addressWriteWaitStep : Obligations.AddressWriteWaitStep := by
  intro i s hp
  rw [exec_addrWWait i s hp]
  obtain ⟨h0, e⟩ | ⟨h0, hm, e⟩ | ⟨h1, hm, e⟩ | ⟨h0, h1, hm, e⟩ := addrWWait_cases i.op s <;> rw [e]
  · exact ⟨fun h => absurd h0 h, fun h => absurd h0 h, fun h => absurd h0 (counter_ne_zero_of_eq_one h),
      fun _ => apply_ite Host.Outcome.next _ _ _⟩
  · rw [hm]
    exact ⟨fun _ _ => apply_ite Host.Outcome.next _ _ _, nofun, nofun, fun h => absurd h h0⟩
  · rw [hm]
    exact ⟨nofun, fun _ h => absurd h1 h, fun _ _ => apply_ite Host.Outcome.next _ _ _,
      fun h => absurd h (counter_ne_zero_of_eq_one h1)⟩
  · rw [hm]
    exact ⟨nofun, fun _ _ _ => rfl, fun h => absurd h h1, fun h => absurd h h0⟩

theorem length_toNat_eq_zero {n : Byte} : n.toNat = 0 ↔ n = 0#8 :=
  BitVec.toNat_inj (y := 0#8)

/-- Settles O18: the loop test on LEN is READ's or WRITE's own. -/
theorem registerSelectWaitStep : Obligations.RegisterSelectWaitStep := by
  intro i s hp
  rw [exec_regSelWait i s hp]
  obtain ⟨hm, e⟩ | ⟨hm, hop, e⟩ | ⟨hm, hop, e⟩ | ⟨hm, hop, e⟩ := regSelWait_cases i.op s <;> rw [e, hm]
  · exact ⟨fun _ => rfl, nofun, nofun⟩
  · rw [hop]
    exact ⟨nofun, nofun, nofun⟩
  · rw [hop]
    exact ⟨nofun, fun _ _ => rfl, nofun⟩
  · rw [hop]
    refine ⟨nofun, nofun, fun _ _ => ?_⟩
    simp only [length_toNat_eq_zero]
    rfl

/-- Settles O24: of the outcomes of REGSEL_WAIT, PING with a satisfied sample has the fault alone. -/
theorem pingHasNoRegisterSelect : Obligations.PingHasNoRegisterSelect := by
  intro a r n s hp hm
  rw [exec_regSelWait _ s hp]
  obtain ⟨hm', _⟩ | ⟨_, _, e⟩ | ⟨_, hop, _⟩ | ⟨_, hop, _⟩ := regSelWait_cases (Instr.ping a r n).op s
  · rw [hm] at hm'
    cases hm'
  · exact e
  · cases hop
  · cases hop

/-- Settles O19: each of the five is one unbounded poll. -/
theorem unboundedWaitSteps : Obligations.UnboundedWaitSteps := by
  intro i s
  refine ⟨fun hp => ?_, fun hp => ?_, fun hp => ?_, fun hp => ?_, fun hp => ?_⟩
  · rw [exec_start1Wait i s hp, start1Wait, waitFor_eq]
    rfl
  · rw [exec_start2Wait i s hp, start2Wait, waitFor_eq]
    rfl
  · rw [exec_rxWait i s hp, rxWait, waitFor_eq]
    rfl
  · rw [exec_txWait i s hp, txWait, waitFor_eq]
    rfl
  · rw [exec_btfWait i s hp, btfWait_eq]
    rfl

/-! ### The actions and the next phase of a step -/

/-- The one exception to one action per step: a bounded poll entered with TMO = 0 (R91). -/
theorem State.action_eq_none_iff {s : State} (hb : s.phase ≠ .idle) :
    s.action = none ↔ boundedWait s.phase = true ∧ s.tmo = 0#32 := by
  cases hp : s.phase <;> simp [State.action, boundedWait, hp]
  exact hb hp

/-- No step of the host is a peripheral action (R91). -/
theorem HostEffect.trace_eq {s t : State} {a : HostStep} (h : HostEffect s a t) : t.trace = s.trace := by
  cases h <;> rfl

/-- Settles O29: a sequencer step adds `State.action` to the trace, which is there but for the one exception. -/
theorem oneActionPerStep : Obligations.OneActionPerStep := by
  intro s t h
  refine ⟨fun hs hb => ?_, fun a rest hs ha => ?_⟩
  · simp only [(step_inversion h hs hb).trace_eq, ← State.action_eq_none_iff hb]
    cases s.action with
    | none => rfl
    | some a => exact ⟨a, rfl⟩
  · rw [step_host hs] at h
    exact (hostStep_inversion h ha).trace_eq

/-- A wait may go on (R88). -/
theorem phase_mem_nextPhases_of_awaited {s : State} {e : Event} (h : awaited s.phase = some e) :
    s.phase ∈ nextPhases s := by
  unfold nextPhases
  cases hp : s.phase <;> rw [hp] at h
  case addrWWait => dsimp only; split <;> exact List.mem_cons_self
  case regSelWait => cases s.op <;> exact List.mem_cons_self
  case idle | start1 | addrW | regSel | ackCfg | start2 | addrR | rxTake | txPut | stop => cases h
  all_goals exact List.mem_cons_self

/-- Each row's next phase is one the table allows. -/
theorem PhaseStep.phase_mem_nextPhases {s t : State} (h : PhaseStep s.op s t) : t.phase ∈ nextPhases s := by
  cases h with
  | bounded_pending _ _ ha | unbounded_pending _ _ ha => exact phase_mem_nextPhases_of_awaited ha
  | addrWWait_spent_ping hp _ hop | addrWWait_spent hp _ hop | addrWWait_satisfied_ping hp _ hop
  | addrWWait_satisfied hp _ hop | addrWWait_expired_ping hp _ hop | addrWWait_expired hp _ hop
  | regSelWait_read hp hop | addrRWait_satisfied_empty hp _ hop =>
    simp [nextPhases, hp, hop]
  | regSelWait_write hp hop => simp [nextPhases, hp, hop, length_toNat_eq_zero]
  | addrRWait_satisfied hp _ hlen => simp [nextPhases, hp, mt length_toNat_eq_zero.1 hlen]
  | rxTake_last hp _ _ hlast | rxTake_more hp _ _ hlast => simp [nextPhases, hp, hlast]
  | busWait_spent hp | busWait_satisfied hp | busWait_expired hp | start1 hp | start1Wait_satisfied hp | addrW hp
  | regSel hp | ackCfg hp | start2 hp | start2Wait_satisfied hp | addrR hp | addrRWait_spent hp | addrRWait_expired hp
  | rxWait_satisfied hp | txWait_satisfied hp | txPut hp | btfWait_satisfied hp | stop hp =>
    simp [nextPhases, hp, Machine.start1, Machine.addrW, Machine.regSel, Machine.ackCfg, Machine.start2, Machine.addrR,
      Machine.stop]

/-- Settles O30: the rows of `PhaseStep` are the rows of the table. -/
theorem transitionsAreInTheTable : Obligations.TransitionsAreInTheTable :=
  fun _ _ hs hb h => (step_inversion h hs hb).phase_mem_nextPhases

end Sys2Proof.Machine
end

