-- ==== Sys2Proof/Proofs/Waits.lean ====
section
/-! The two kinds of wait as runs of a silent host (spec/40_oracle_and_primitives.md R76, R77): the samples that do not end one, the sample that does, and the abort path (R150). -/

namespace Sys2Proof.Machine

/-! ### The samples taken -/

/-- The state after a wait took these samples, none of which ended it, with `rest` still to be answered (R40, R71). -/
def State.waited (answers rest : List StatusWord) (s : State) : State :=
  { s with
    statusAnswers := rest
    fresh := s.fresh + answers.length
    trace := samplesOf answers ++ s.trace }

theorem State.waited_nil {s : State} {rest : List StatusWord} (h : s.statusAnswers = [] ++ rest) : s.waited [] rest = s := by
  rw [List.nil_append] at h
  subst h
  rfl

/-- One more sample. -/
theorem State.sampled_waited (l : List StatusWord) (w : StatusWord) (rest : List StatusWord) (s : State) :
    (s.waited l (w :: rest)).sampled = s.waited (l ++ [w]) rest := by
  simp only [State.sampled, State.waited, State.statusWord, samplesOf_snoc, List.tail_cons, List.length_append,
    List.length_singleton, Nat.add_assoc]

/-- TMO after `n` samples, where the budget has as many. -/
theorem counter_sub_toNat {a : Counter} {n : Nat} (h : n ≤ a.toNat) : (a - BitVec.ofNat 32 n).toNat = a.toNat - n := by
  have := a.isLt
  simp only [BitVec.toNat_sub, BitVec.toNat_ofNat]
  omega

theorem counter_sub_one (a : Counter) (n : Nat) : a - BitVec.ofNat 32 n - 1#32 = a - BitVec.ofNat 32 (n + 1) := by
  rw [BitVec.ofNat_add, BitVec.sub_sub]

/-- However many unsatisfied samples an unbounded wait takes, it goes on (R77). -/
theorem run_unbounded_pending {s : State} {e : Event} {answers rest : List StatusWord} (hs : s.script = [])
    (hb : unboundedWait s.phase = true) (ha : awaited s.phase = some e) (hans : s.statusAnswers = answers ++ rest)
    (hnone : noneSatisfies s.params e answers) : run answers.length s = .next (s.waited answers rest) := by
  induction answers using List.reverseRecOn generalizing rest with
  | nil => rw [State.waited_nil hans]; rfl
  | append_singleton l w ih =>
    rw [List.append_assoc] at hans
    have hpending : step (s.waited l (w :: rest)) = .next (s.waited l (w :: rest)).sampled :=
      step_unbounded_pending hs hb ha (hnone w (by simp))
    rw [List.length_append, run_add_of_run (ih hans fun v hv => hnone v (List.mem_append_left _ hv)),
      ← State.sampled_waited]
    exact run_one_of_step hpending

/-- A bounded wait goes on through fewer unsatisfied samples than its budget, and counts them (R76). -/
theorem run_bounded_pending {s : State} {e : Event} {answers rest : List StatusWord} (hs : s.script = [])
    (hb : boundedWait s.phase = true) (ha : awaited s.phase = some e) (hans : s.statusAnswers = answers ++ rest)
    (hnone : noneSatisfies s.params e answers) (hlen : answers.length < s.tmo.toNat) :
    run answers.length s = .next ((s.waited answers rest).load (s.tmo - BitVec.ofNat 32 answers.length)) := by
  induction answers using List.reverseRecOn generalizing rest with
  | nil => rw [State.waited_nil hans, List.length_nil, BitVec.sub_zero]; rfl
  | append_singleton l w ih =>
    rw [List.append_assoc] at hans
    rw [List.length_append, List.length_singleton] at hlen ⊢
    have htmo := counter_sub_toNat (a := s.tmo) (n := l.length) (by omega)
    have hpending : step ((s.waited l (w :: rest)).load (s.tmo - BitVec.ofNat 32 l.length)) =
        .next ((s.waited l (w :: rest)).sampled.load (s.tmo - BitVec.ofNat 32 l.length - 1#32)) := by
      refine step_bounded_pending hs hb ha (fun h => ?_) (fun h => ?_) (hnone w (by simp)) <;>
        rw [State.load_tmo] at h <;> rw [h, BitVec.toNat_ofNat] at htmo <;> omega
    rw [run_add_of_run (ih hans (fun v hv => hnone v (List.mem_append_left _ hv)) (by omega)), ← counter_sub_one,
      ← State.sampled_waited]
    exact run_one_of_step hpending

/-! ### The abort path -/

/-- The abort path of a bounded wait (R150): TIMEOUT from BUSWAIT, else NOACK; PING's NOACK goes on to STOP, the others finish. -/
def State.abort (s : State) : State :=
  { s with
    result := if s.phase = .busWait then .timeout else .noAck
    done := if s.phase = .addrWWait ∧ s.op = .ping then s.done else true
    phase := if s.phase = .addrWWait ∧ s.op = .ping then .stop else .idle }

section
variable {s : State}

theorem State.abort_of_busWait (h : s.phase = .busWait) : s.abort = s.raiseFailure .timeout := by
  simp [State.abort, State.raiseFailure, State.finish, State.setResult, h]

theorem State.abort_of_addrWWait (h : s.phase = .addrWWait) :
    s.abort = if s.op = .ping then s.failThroughStop .noAck else s.raiseFailure .noAck := by
  by_cases hop : s.op = .ping <;>
    simp [State.abort, State.failThroughStop, State.goto, State.raiseFailure, State.finish, State.setResult, h, hop]

theorem State.abort_of_addrRWait (h : s.phase = .addrRWait) : s.abort = s.raiseFailure .noAck := by
  simp [State.abort, State.raiseFailure, State.finish, State.setResult, h]

end

theorem boundedPoll_spent (e : Event) {s : State} (h0 : s.tmo = 0#32) : boundedPoll e s = (.expired, s) := if_pos h0

theorem boundedPoll_expired {e : Event} {s : State} (h1 : s.tmo = 1#32)
    (hm : oracleMatch s.params e s.statusWord = false) : boundedPoll e s = (.expired, s.sampled.load 0#32) := by
  simp [boundedPoll, h1, hm]

/-- A bounded wait whose poll expires takes the abort path in the same step. -/
theorem step_bounded_expired {s t : State} {e : Event} (hs : s.script = []) (hb : boundedWait s.phase = true)
    (ha : awaited s.phase = some e) (hpoll : boundedPoll e s = (.expired, t)) (hphase : t.phase = s.phase)
    (hop : t.op = s.op) : step s = .next t.abort := by
  have hbusy : s.phase ≠ .idle := by
    intro h
    rw [h] at hb
    cases hb
  rw [step_running hs hbusy]
  obtain hp | hp | hp := (boundedWait_iff _).1 hb <;> rw [hp] at ha <;> cases ha
  · rw [exec_busWait _ _ hp, busWait, hpoll, State.abort_of_busWait (hphase.trans hp)]
  · rw [exec_addrWWait _ _ hp, State.running_op, addrWWait, hpoll, State.abort_of_addrWWait (hphase.trans hp), hop]
    cases s.op <;> rfl
  · rw [exec_addrRWait _ _ hp, addrRWait, hpoll, State.abort_of_addrRWait (hphase.trans hp)]

/-- A bounded wait that gets no satisfying sample takes as many as its budget and aborts in the step of the last one; with
no budget it aborts in its first step (R76, R100). -/
theorem run_bounded_expired {s : State} {e : Event} {answers rest : List StatusWord} (hs : s.script = [])
    (hb : boundedWait s.phase = true) (ha : awaited s.phase = some e) (hans : s.statusAnswers = answers ++ rest)
    (hnone : noneSatisfies s.params e answers) (hlen : answers.length = s.tmo.toNat) :
    run (max 1 answers.length) s = .next ((s.waited answers rest).load 0#32).abort := by
  obtain rfl | ⟨l, w, rfl⟩ := List.eq_nil_or_concat' answers
  · have h0 : s.tmo = 0#32 := BitVec.eq_of_toNat_eq hlen.symm
    rw [State.waited_nil hans, ← h0]
    exact run_one_of_step (step_bounded_expired hs hb ha (boundedPoll_spent e h0) rfl rfl)
  · rw [List.append_assoc] at hans
    rw [List.length_append, List.length_singleton] at hlen ⊢
    have h1 : s.tmo - BitVec.ofNat 32 l.length = 1#32 := by
      refine BitVec.eq_of_toNat_eq ?_
      rw [counter_sub_toNat (by omega), BitVec.toNat_ofNat]
      omega
    have hrun := run_bounded_pending hs hb ha hans (fun v hv => hnone v (List.mem_append_left _ hv)) (by omega)
    rw [h1] at hrun
    rw [Nat.max_eq_right (by omega), run_add_of_run hrun, ← State.sampled_waited]
    exact run_one_of_step (step_bounded_expired hs hb ha (boundedPoll_expired rfl (hnone w (by simp))) rfl rfl)

/-- Settles O43: `run_bounded_pending` before the N-th sample, `run_bounded_expired` at it. -/
theorem boundedWaitExpiresAtItsBudget : Obligations.BoundedWaitExpiresAtItsBudget := by
  intro s e answers rest hs hb ha h0 hans hnone
  refine ⟨run_bounded_pending hs hb ha hans hnone, fun hlen => ?_⟩
  have hpos : s.tmo.toNat ≠ 0 := fun h => h0 (BitVec.eq_of_toNat_eq h)
  have hrun := run_bounded_expired hs hb ha hans hnone hlen
  rw [Nat.max_eq_right (by omega)] at hrun
  exact hrun

/-! ### The satisfying sample -/

/-- Where a satisfied wait goes (R88); PING in REGSEL_WAIT goes nowhere. -/
def State.exitPhase (s : State) : Phase :=
  match s.phase with
  | .busWait => .start1
  | .start1Wait => .addrW
  | .addrWWait => if s.op = .ping then .stop else .regSel
  | .regSelWait =>
    match s.op with
    | .ping => .regSelWait
    | .read => if 1 < s.len.toNat then .ackCfg else .start2
    | .write => if s.len = 0#8 then .btfWait else .txWait
  | .start2Wait => .addrR
  | .addrRWait => if s.len = 0#8 then .stop else .rxWait
  | .rxWait => .rxTake
  | .txWait => .txPut
  | .btfWait => .stop
  | .idle | .start1 | .addrW | .regSel | .ackCfg | .start2 | .addrR | .rxTake | .txPut | .stop => s.phase

/-- A satisfied wait moves on, and into STOP with OK (R84, R110, R129). -/
def State.leaveWait (s : State) : State :=
  { s with
    result := if s.exitPhase = .stop then .ok else s.result
    phase := s.exitPhase }

theorem boundedPoll_satisfied {e : Event} {s : State} (h0 : s.tmo ≠ 0#32)
    (hm : oracleMatch s.params e s.statusWord = true) : boundedPoll e s = (.satisfied, s.sampled) := by
  simp [boundedPoll, h0, hm]

theorem unboundedPoll_satisfied {e : Event} {s : State}
    (hm : oracleMatch s.params e s.statusWord = true) : unboundedPoll e s = (.satisfied, s.sampled) := if_pos hm

theorem waitFor_satisfied {e : Event} {p : Phase} {s : State} (hm : oracleMatch s.params e s.statusWord = true)
    (hexit : s.exitPhase = p) (hp : p ≠ .stop) : waitFor e p s = s.sampled.leaveWait := by
  have hexit' : s.sampled.exitPhase = p := hexit
  rw [waitFor_eq, if_pos hm]
  simp [State.leaveWait, State.goto, hexit', hp]

/-- The step of a wait whose sample is satisfied, for all nine waits. -/
theorem step_satisfied {s : State} {e : Event} (hs : s.script = []) (ha : awaited s.phase = some e)
    (h0 : boundedWait s.phase = true → s.tmo ≠ 0#32) (hping : s.phase = .regSelWait → s.op ≠ .ping)
    (hm : oracleMatch s.params e s.statusWord = true) : step s = .next s.sampled.leaveWait := by
  have hbusy : s.phase ≠ .idle := by
    intro h
    rw [h] at ha
    cases ha
  rw [step_running hs hbusy]
  cases hp : s.phase <;> rw [hp] at ha h0 <;> cases ha
  case busWait =>
    rw [exec_busWait _ _ hp, busWait, boundedPoll_satisfied (h0 rfl) hm]
    simp [State.leaveWait, State.exitPhase, State.goto, hp]
  case start1Wait =>
    rw [exec_start1Wait _ _ hp]
    exact congrArg Host.Outcome.next (waitFor_satisfied hm (by rw [State.exitPhase, hp]) nofun)
  case addrWWait =>
    rw [exec_addrWWait _ _ hp, State.running_op, addrWWait, boundedPoll_satisfied (h0 rfl) hm]
    cases hop : s.op <;> simp [State.leaveWait, State.exitPhase, State.goto, State.setResult, hp, hop]
  case regSelWait =>
    rw [exec_regSelWait _ _ hp, State.running_op, regSelWait, unboundedPoll_satisfied hm]
    cases hop : s.op with
    | ping => exact absurd hop (hping hp)
    | read =>
      by_cases hn : 1 < s.len.toNat <;>
        simp [State.leaveWait, State.exitPhase, State.goto, State.lenAboveOne, hp, hop, hn]
    | write =>
      by_cases hn : s.len = 0#8 <;> simp [State.leaveWait, State.exitPhase, State.goto, State.lenZero, hp, hop, hn]
  case start2Wait =>
    rw [exec_start2Wait _ _ hp]
    exact congrArg Host.Outcome.next (waitFor_satisfied hm (by rw [State.exitPhase, hp]) nofun)
  case addrRWait =>
    rw [exec_addrRWait _ _ hp, addrRWait, boundedPoll_satisfied (h0 rfl) hm]
    by_cases hn : s.len = 0#8 <;>
      simp [State.leaveWait, State.exitPhase, State.goto, State.setResult, State.lenZero, hp, hn]
  case rxWait =>
    rw [exec_rxWait _ _ hp]
    exact congrArg Host.Outcome.next (waitFor_satisfied hm (by rw [State.exitPhase, hp]) nofun)
  case txWait =>
    rw [exec_txWait _ _ hp]
    exact congrArg Host.Outcome.next (waitFor_satisfied hm (by rw [State.exitPhase, hp]) nofun)
  case btfWait =>
    rw [exec_btfWait _ _ hp, btfWait_eq, if_pos hm]
    simp [State.leaveWait, State.exitPhase, State.goto, State.setResult, hp]

/-- A bounded wait first satisfied within its budget ends there (R76). -/
theorem run_bounded_satisfied {s : State} {e : Event} {answers rest : List StatusWord} {w : StatusWord}
    (hs : s.script = []) (hb : boundedWait s.phase = true) (ha : awaited s.phase = some e)
    (hans : s.statusAnswers = answers ++ w :: rest) (hnone : noneSatisfies s.params e answers)
    (hm : oracleMatch s.params e w = true) (hlen : answers.length < s.tmo.toNat) :
    run (answers.length + 1) s =
      .next ((s.waited (answers ++ [w]) rest).load (s.tmo - BitVec.ofNat 32 answers.length)).leaveWait := by
  have h0 : s.tmo - BitVec.ofNat 32 answers.length ≠ 0#32 := by
    intro h
    have htmo := counter_sub_toNat (Nat.le_of_lt hlen)
    rw [h, BitVec.toNat_ofNat] at htmo
    omega
  rw [run_add_of_run (run_bounded_pending hs hb ha hans hnone hlen), ← State.sampled_waited]
  refine run_one_of_step (step_satisfied hs ha (fun _ => h0) (fun hp => ?_) hm)
  rw [State.load_phase] at hp
  rw [show s.phase = .regSelWait from hp] at hb
  cases hb

/-- An unbounded wait ends at its first satisfying sample (R77). -/
theorem run_unbounded_satisfied {s : State} {e : Event} {answers rest : List StatusWord} {w : StatusWord}
    (hs : s.script = []) (hb : unboundedWait s.phase = true) (ha : awaited s.phase = some e)
    (hping : s.phase = .regSelWait → s.op ≠ .ping) (hans : s.statusAnswers = answers ++ w :: rest)
    (hnone : noneSatisfies s.params e answers) (hm : oracleMatch s.params e w = true) :
    run (answers.length + 1) s = .next (s.waited (answers ++ [w]) rest).leaveWait := by
  rw [run_add_of_run (run_unbounded_pending hs hb ha hans hnone), ← State.sampled_waited]
  refine run_one_of_step (step_satisfied hs ha (fun h => ?_) hping hm)
  have hnot : boundedWait s.phase = false := boundedWait_of_unbounded hb
  rw [show boundedWait s.phase = true from h] at hnot
  cases hnot

/-- Settles O44: the state `run_bounded_satisfied` ends in, its phase read off for each of the three waits. -/
theorem boundedWaitEndsAtSatisfyingSample : Obligations.BoundedWaitEndsAtSatisfyingSample := by
  intro s e answers rest w hs hb ha hans hnone hm hlen
  refine ⟨_, run_bounded_satisfied hs hb ha hans hnone hm hlen, ?_, rfl, rfl, rfl, rfl, rfl⟩
  show s.exitPhase = _
  obtain hp | hp | hp := (boundedWait_iff _).1 hb <;> simp [State.exitPhase, hp]

/-- Settles O45: `run_unbounded_pending`, an induction on the samples taken. -/
theorem unboundedWaitHangsWithoutItsEvent : Obligations.UnboundedWaitHangsWithoutItsEvent :=
  fun _ _ _ _ hs hb ha hans hnone => run_unbounded_pending hs hb ha hans hnone

/-- The first satisfying answer, where there is one (R185). -/
theorem split_of_envProgress {p : Params} {e : Event} {answers : List StatusWord} (h : envProgress p e answers) :
    ∃ l w left, answers = l ++ w :: left ∧ noneSatisfies p e l ∧ oracleMatch p e w = true := by
  obtain ⟨w, hw⟩ := Option.isSome_iff_exists.1 (List.find?_isSome (p := oracleMatch p e).2 h)
  obtain ⟨hm, l, left, rfl, hnone⟩ := List.find?_eq_some_iff_append.1 hw
  exact ⟨l, w, left, rfl, fun v hv => by simpa using hnone v hv, hm⟩

/-- A satisfied wait goes where the table says (R88). -/
theorem State.exitPhase_mem_nextPhases {s : State} {e : Event} (ha : awaited s.phase = some e) :
    s.exitPhase ∈ nextPhases s := by
  cases hp : s.phase <;> rw [hp] at ha <;> cases ha
  case addrWWait => by_cases hop : s.op = .ping <;> simp [State.exitPhase, nextPhases, hp, hop]
  case regSelWait => cases hop : s.op <;> simp [State.exitPhase, nextPhases, hp, hop, length_toNat_eq_zero]
  case addrRWait => simp [State.exitPhase, nextPhases, hp, length_toNat_eq_zero]
  all_goals simp [State.exitPhase, nextPhases, hp]

/-- A satisfied wait is over, PING in REGSEL_WAIT apart. -/
theorem State.exitPhase_ne {s : State} {e : Event} (ha : awaited s.phase = some e)
    (hping : s.phase = .regSelWait → s.op ≠ .ping) : s.exitPhase ≠ s.phase := by
  unfold State.exitPhase
  cases hp : s.phase <;> rw [hp] at ha <;> cases ha
  case addrWWait => dsimp only; split <;> nofun
  case addrRWait => dsimp only; split <;> nofun
  case regSelWait =>
    cases hop : s.op with
    | ping => exact absurd hop (hping hp)
    | read => dsimp only; split <;> nofun
    | write => dsimp only; split <;> nofun
  all_goals nofun

/-- Settles O46: the run up to the first satisfying answer. -/
theorem unboundedWaitEndsUnderProgress : Obligations.UnboundedWaitEndsUnderProgress := by
  intro s e answers rest hs hb ha hping hans hprogress
  obtain ⟨l, w, left, rfl, hnone, hm⟩ := split_of_envProgress hprogress
  rw [List.append_assoc, List.cons_append] at hans
  have hrun := run_unbounded_satisfied hs hb ha hping hans hnone hm
  have hlen : (l ++ [w]).length = l.length + 1 := List.length_append
  rw [← hlen] at hrun
  exact ⟨l ++ [w], left, _, List.append_cons l w left, hrun, State.exitPhase_ne ha hping,
    State.exitPhase_mem_nextPhases ha, rfl, rfl, rfl, rfl, rfl⟩

end Sys2Proof.Machine
end

