-- ==== Sys2Proof/Proofs/Failures.lean ====
section
/-! The whole operations that fail: no device at the address (spec/40_oracle_and_primitives.md R84, R100, R151), and a bus that never becomes idle (R78, R142). -/

namespace Sys2Proof.Machine

/-- The address byte made of a latched address, with the write direction (R61). -/
theorem wire_write_ofNat (a : Nat) : wire (BitVec.ofNat 7 a) .write = BitVec.ofNat 8 (2 * a) := by
  refine BitVec.eq_of_toNat_eq ?_
  have hwire : (wire (BitVec.ofNat 7 a) .write).toNat = 2 * (BitVec.ofNat 7 a).toNat := wire_toNat _ _
  rw [hwire, BitVec.toNat_ofNat, BitVec.toNat_ofNat]
  omega

/-- The offer of a well-formed command to an idle block is the step into `State.called`. -/
theorem step_called {s : State} {i : Instr} (hwf : i.wellFormed = true) (hp : s.phase = .idle)
    (hs : s.script = [.offer (encode i)]) : step s = .next (s.called i) :=
  step_offer hs hp (decode_encode hwf)

section
variable {s : State} (hs : s.script = [])
include hs

theorem step_start1 (hp : s.phase = .start1) : step s = .next (start1 s) := by
  rw [step_running hs (by rw [hp]; nofun), exec_start1 _ _ hp]

theorem step_addrW (hp : s.phase = .addrW) : step s = .next (addrW s) := by
  rw [step_running hs (by rw [hp]; nofun), exec_addrW _ _ hp]

theorem step_stop (hp : s.phase = .stop) : step s = .next (stop s) := by
  rw [step_running hs (by rw [hp]; nofun), exec_stop _ _ hp]

end

/-- The state in ADDRW_WAIT after a command was accepted and the idle wait and the START wait were each satisfied by their
first sample. -/
def State.addressed (i : Instr) (s : State) : State :=
  addrW (start1 (s.called i).sampled.leaveWait).sampled.leaveWait

section
variable {s : State} {i : Instr} {w1 w2 : StatusWord} {more : List StatusWord}

theorem State.called_statusWord (hans : s.statusAnswers = w1 :: more) : (s.called i).statusWord = w1 :=
  State.statusWord_cons (s := s.called i) hans

/-- In START1_WAIT the first answer is used up. -/
theorem State.started_statusWord (hans : s.statusAnswers = w1 :: w2 :: more) :
    (start1 (s.called i).sampled.leaveWait).statusWord = w2 :=
  State.statusWord_cons (s := start1 (s.called i).sampled.leaveWait) (congrArg List.tail hans)

theorem State.addressed_statusAnswers (hans : s.statusAnswers = w1 :: w2 :: more) :
    (s.addressed i).statusAnswers = more :=
  congrArg (fun l => l.tail.tail) hans

theorem State.addressed_trace (hans : s.statusAnswers = w1 :: w2 :: more) :
    (s.addressed i).trace = .dataWr (BitVec.ofNat 8 (2 * i.addr)) :: .statusRd w2 :: .start :: .statusRd w1 :: s.trace := by
  rw [← wire_write_ofNat, ← State.called_statusWord hans, ← State.started_statusWord hans]
  rfl

/-- The START took the bus. -/
theorem State.addressed_busHeld : busHeld (s.addressed i).trace = true := rfl

/-- Accept, BUSWAIT, START1, START1_WAIT and ADDRW, one step each. -/
theorem run_addressed (hwf : i.wellFormed = true) (hp : s.phase = .idle) (hs : s.script = [.offer (encode i)])
    (hans : s.statusAnswers = w1 :: w2 :: more) (htIdle : s.params.tIdle ≠ 0#32)
    (hm1 : oracleMatch s.params .busIdle w1 = true) (hm2 : oracleMatch s.params .startSelected w2 = true) :
    run 5 s = .next (s.addressed i) := by
  have hbusWait : step (s.called i) = .next (s.called i).sampled.leaveWait :=
    step_satisfied (e := .busIdle) rfl rfl (fun _ => htIdle) nofun (State.called_statusWord hans ▸ hm1)
  have hstart1 : step (s.called i).sampled.leaveWait = .next (start1 (s.called i).sampled.leaveWait) :=
    step_start1 rfl rfl
  have hstart1Wait : step (start1 (s.called i).sampled.leaveWait) =
      .next (start1 (s.called i).sampled.leaveWait).sampled.leaveWait :=
    step_satisfied (e := .startSelected) rfl rfl nofun nofun (State.started_statusWord hans ▸ hm2)
  have haddrW : step (start1 (s.called i).sampled.leaveWait).sampled.leaveWait = .next (s.addressed i) :=
    step_addrW rfl rfl
  rw [run_succ_of_step (step_called hwf hp hs), run_succ_of_step hbusWait, run_succ_of_step hstart1,
    run_succ_of_step hstart1Wait]
  exact run_one_of_step haddrW

end

/-- Settles O49: Accept, then BUSWAIT to its abort. -/
theorem busyBusReportsTimeout : Obligations.BusyBusReportsTimeout := by
  intro s i answers rest hwf hp hs hans hnone hlen
  have hrun : run (max 1 answers.length) (s.called i) = .next (((s.called i).waited answers rest).load 0#32).abort :=
    run_bounded_expired (e := .busIdle) rfl rfl rfl hans hnone hlen
  exact ⟨_, (run_add_of_run (run_one_of_step (step_called hwf hp hs))).trans hrun, rfl,
    State.returned_eq_some.2 ⟨rfl, rfl, rfl⟩, rfl, rfl, rfl⟩

/-- Settles O48: `run_addressed`, ADDRW_WAIT to its abort, and PING's STOP. -/
theorem absentDeviceReportsNoAck : Obligations.AbsentDeviceReportsNoAck := by
  intro s i l3 rest w1 w2 hwf hp hs hans htIdle hm1 hm2 hnone hlen
  have haddressed := run_addressed hwf hp hs hans htIdle hm1 hm2
  have hwait : run (max 1 l3.length) (s.addressed i) = .next (((s.addressed i).waited l3 rest).load 0#32).abort :=
    run_bounded_expired (e := .addrTxSelected) rfl rfl rfl (State.addressed_statusAnswers hans) hnone hlen
  rw [State.abort_of_addrWWait rfl] at hwait
  change run _ _ = .next (if i.op = .ping then _ else _) at hwait
  by_cases hping : i.op = .ping
  · simp only [if_pos hping] at hwait ⊢
    have hsteps : 6 + max 1 l3.length = 5 + (max 1 l3.length + 1) := by omega
    rw [hsteps, run_add_of_run haddressed, run_add_of_run hwait]
    refine ⟨_, run_one_of_step (step_stop rfl rfl), rfl,
      State.returned_eq_some.2 ⟨rfl, rfl, rfl⟩, rfl, rfl, ?_, ?_⟩
    · rw [← State.addressed_trace hans]
      rfl
    · exact iff_of_false Bool.false_ne_true (not_not.2 hping)
  · simp only [if_neg hping] at hwait ⊢
    refine ⟨_, (run_add_of_run haddressed).trans hwait, rfl, State.returned_eq_some.2 ⟨rfl, rfl, rfl⟩, rfl, rfl, ?_, ?_⟩
    · rw [← State.addressed_trace hans]
      rfl
    · exact iff_of_true ((busHeld_samplesOf l3 _).trans State.addressed_busHeld) hping

end Sys2Proof.Machine
end

