-- ==== Sys2Proof/Proofs/Ping.lean ====
section
/-! PING of a present device (spec/41_ping.md R93, R99, R184), in three stretches: the bus found idle, the bus taken, the address acknowledged. -/

namespace Sys2Proof.Machine

/-- The state in START1 after a command was accepted and BUSWAIT was first satisfied by the sample `w` after those of `l`. -/
def State.busFound (i : Instr) (l : List StatusWord) (w : StatusWord) (more : List StatusWord) (s : State) : State :=
  (((s.called i).waited (l ++ [w]) more).load (s.params.tIdle - BitVec.ofNat 32 l.length)).leaveWait

/-- The state in ADDRW after the START of START1, where START1_WAIT was first satisfied by the sample `w` after those of `l`. -/
def State.busTaken (l : List StatusWord) (w : StatusWord) (more : List StatusWord) (s : State) : State :=
  ((start1 s).waited (l ++ [w]) more).leaveWait

/-- The state after the address byte of ADDRW, where ADDRW_WAIT was first satisfied by the sample `w` after those of `l`. -/
def State.acknowledged (l : List StatusWord) (w : StatusWord) (more : List StatusWord) (s : State) : State :=
  (((addrW s).waited (l ++ [w]) more).load (s.params.tAddr - BitVec.ofNat 32 l.length)).leaveWait

section
variable {s : State} {l more : List StatusWord} {w : StatusWord} (hans : s.statusAnswers = l ++ w :: more)
include hans

/-- Accept, then BUSWAIT to its satisfying sample. -/
theorem run_busFound {i : Instr} (hwf : i.wellFormed = true) (hp : s.phase = .idle) (hs : s.script = [.offer (encode i)])
    (hnone : noneSatisfies s.params .busIdle l) (hm : oracleMatch s.params .busIdle w = true)
    (hlen : l.length < s.params.tIdle.toNat) : run (l.length + 2) s = .next (s.busFound i l w more) := by
  rw [run_succ_of_step (step_called hwf hp hs)]
  exact run_bounded_satisfied (s := s.called i) (e := .busIdle) rfl rfl rfl hans hnone hm hlen

/-- START1, then START1_WAIT to its satisfying sample. -/
theorem run_busTaken (hs : s.script = []) (hp : s.phase = .start1) (hnone : noneSatisfies s.params .startSelected l)
    (hm : oracleMatch s.params .startSelected w = true) : run (l.length + 2) s = .next (s.busTaken l w more) := by
  rw [run_succ_of_step (step_start1 hs hp)]
  exact run_unbounded_satisfied (s := start1 s) (e := .startSelected) hs rfl rfl nofun hans hnone hm

/-- ADDRW, then ADDRW_WAIT to its satisfying sample. -/
theorem run_acknowledged (hs : s.script = []) (hp : s.phase = .addrW) (hnone : noneSatisfies s.params .addrTxSelected l)
    (hm : oracleMatch s.params .addrTxSelected w = true) (hlen : l.length < s.params.tAddr.toNat) :
    run (l.length + 2) s = .next (s.acknowledged l w more) := by
  rw [run_succ_of_step (step_addrW hs hp)]
  exact run_bounded_satisfied (s := addrW s) (e := .addrTxSelected) hs rfl rfl hans hnone hm hlen

end

/-- Settles O47: the three stretches one after another, then STOP. -/
theorem pingOfPresentDeviceReportsOk : Obligations.PingOfPresentDeviceReportsOk := by
  intro s a r n l1 l2 l3 rest w1 w2 w3 hwf hp hs hans hnone1 hm1 hlen1 hnone2 hm2 hnone3 hm3 hlen3
  have hfound := run_busFound hans hwf hp hs hnone1 hm1 hlen1
  have htaken := run_busTaken (s := s.busFound (.ping a r n) l1 w1 (l2 ++ w2 :: (l3 ++ w3 :: rest)))
    rfl rfl rfl hnone2 hm2
  have hacked := run_acknowledged
    (s := (s.busFound (.ping a r n) l1 w1 (l2 ++ w2 :: (l3 ++ w3 :: rest))).busTaken l2 w2 (l3 ++ w3 :: rest))
    rfl rfl rfl hnone3 hm3 hlen3
  have hsteps : l1.length + l2.length + l3.length + 7 =
      (l1.length + 2) + ((l2.length + 2) + ((l3.length + 2) + 1)) := by omega
  rw [hsteps, run_add_of_run hfound, run_add_of_run htaken, run_add_of_run hacked, ← wire_write_ofNat]
  exact ⟨_, run_one_of_step (step_stop rfl rfl), rfl, State.returned_eq_some.2 ⟨rfl, rfl, rfl⟩, rfl, rfl, rfl⟩

end Sys2Proof.Machine
end

