-- ==== Sys2Proof/Proofs/Scan.lean ====
section
/-! The scan (spec/41_ping.md R104): the words it issues, one candidate's PING for each result, and the candidates one after another. -/

namespace Sys2Proof.Machine

theorem scanCommand_wellFormed {c : Nat} (hc : c < 127) : (scanCommand c).wellFormed = true :=
  (Instr.wellFormed_iff _).2 ⟨Nat.lt_succ_of_lt hc, Nat.zero_lt_succ _, Nat.zero_lt_succ _⟩

/-- Settles O38: the candidate at each place is that place's number, and the decoder reads its word back. -/
theorem scanIssuesEveryCandidateOnce : Obligations.ScanIssuesEveryCandidateOnce := by
  refine ⟨by simp [scanWords, scanCandidates], fun c hc => ⟨encode (scanCommand c), ?_, decode_encode ?_⟩⟩
  · simp [scanWords, scanCandidates, hc]
  · exact scanCommand_wellFormed hc

/-! ### One candidate -/

/-- With the answers for a result (R93, R100, R142), the PING offered to an idle block returns that result, in no more
steps than `answers.length + 6`, and uses up these answers only. -/
theorem run_ping_of_pingAnswers {s : State} {c : Nat} {r : Result} {answers rest : List StatusWord} (hc : c < 127)
    (hp : s.phase = .idle) (hs : s.script = [.offer (encode (scanCommand c))])
    (hans : s.statusAnswers = answers ++ rest) (hr : pingAnswers s.params r answers) :
    ∃ k t, k ≤ answers.length + 5 ∧ run (k + 1) s = .next t ∧ t.returned = some r ∧ t.statusAnswers = rest ∧
      t.buffer = s.buffer := by
  have hwf := scanCommand_wellFormed hc
  cases r with
  | ok =>
    obtain ⟨l1, w1, l2, w2, l3, w3, rfl, hnone1, hm1, hlen1, hnone2, hm2, hnone3, hm3, hlen3⟩ := hr
    simp only [List.append_assoc, List.cons_append, List.nil_append] at hans
    obtain ⟨t, hrun, _, hret, hbuf, hrest, _⟩ := pingOfPresentDeviceReportsOk s c 0 0 l1 l2 l3 rest w1 w2 w3 hwf hp hs
      hans hnone1 hm1 hlen1 hnone2 hm2 hnone3 hm3 hlen3
    refine ⟨_, t, ?_, hrun, hret, hrest, hbuf⟩
    simp only [List.length_append, List.length_cons, List.length_nil]
    omega
  | noAck =>
    obtain ⟨w1, w2, l3, rfl, htIdle, hm1, hm2, hnone, hlen⟩ := hr
    obtain ⟨t, hrun, _, hret, hbuf, hrest, _⟩ := absentDeviceReportsNoAck s (scanCommand c) l3 rest w1 w2 hwf hp hs hans
      htIdle hm1 hm2 hnone hlen
    have hsteps : (if (scanCommand c).op = .ping then 6 else 5) + max 1 l3.length = 5 + max 1 l3.length + 1 := by
      rw [if_pos (show (scanCommand c).op = .ping from rfl)]
      omega
    rw [hsteps] at hrun
    refine ⟨_, t, ?_, hrun, hret, hrest, hbuf⟩
    simp only [List.length_cons]
    omega
  | timeout =>
    obtain ⟨hnone, hlen⟩ := hr
    obtain ⟨t, hrun, _, hret, hbuf, hrest, _⟩ := busyBusReportsTimeout s (scanCommand c) answers rest hwf hp hs hans
      hnone hlen
    rw [Nat.add_comm] at hrun
    exact ⟨_, t, by omega, hrun, hret, hrest, hbuf⟩

/-- What probing these candidates, with these results, makes of a machine: each PING was offered and accepted once, in
order, the block is idle again with the last one's result, and `rest` is still to be answered. -/
structure Probed (result : Nat → Result) (cs : List Nat) (rest : List StatusWord) (s t : State) : Prop where
  idle : t.phase = .idle
  silent : t.script = []
  params : t.params = s.params
  returned : t.returned = cs.foldl (fun _ c => some (result c)) s.returned
  statusAnswers : t.statusAnswers = rest
  buffer : t.buffer = s.buffer
  hostLog : t.hostLog = (cs.map fun c => HostSeen.offered (encode (scanCommand c)) true).reverse ++ s.hostLog

/-- No candidate probed. -/
theorem Probed.nil {result : Nat → Result} {rest : List StatusWord} {s : State} (hp : s.phase = .idle)
    (hs : s.script = []) (hans : s.statusAnswers = rest) : Probed result [] rest s s :=
  ⟨hp, hs, rfl, rfl, hans, rfl, rfl⟩

/-- One candidate probed, then others. -/
theorem Probed.cons {result : Nat → Result} {c : Nat} {cs : List Nat} {mid rest : List StatusWord} {s t u : State}
    (hc : Probed result [c] mid s t) (hcs : Probed result cs rest t u) : Probed result (c :: cs) rest s u where
  idle := hcs.idle
  silent := hcs.silent
  params := hcs.params.trans hc.params
  returned := by rw [hcs.returned, hc.returned]; rfl
  statusAnswers := hcs.statusAnswers
  buffer := hcs.buffer.trans hc.buffer
  hostLog := by rw [hcs.hostLog, hc.hostLog]; simp

/-- The call for one candidate returns its result (R66), where the host is patient enough. -/
theorem call_scanCommand {s : State} {c : Nat} {result : Nat → Result} {answers rest : List StatusWord} {patience : Nat}
    (hc : c < 127) (hp : s.phase = .idle) (hs : s.script = []) (hans : s.statusAnswers = answers ++ rest)
    (hr : pingAnswers s.params (result c) answers) (hpatience : answers.length + 5 ≤ patience) :
    ∃ t, call patience (scanCommand c) s = .finished (result c) t ∧ Probed result [c] rest s t := by
  have hwf := scanCommand_wellFormed hc
  obtain ⟨k, t, hk, hrun, hret, hrest, hbuf⟩ := run_ping_of_pingAnswers
    (s := { s with script := [.offer (encode (scanCommand c))] }) hc hp rfl hans hr
  obtain ⟨hreturns, _, _⟩ := blockingCallReturnsTheResult s (scanCommand c) patience hwf hp hs
  have hcall := hreturns k t _ (hk.trans hpatience) hrun hret
  have hwait := (call_eq_waitUntil hwf hp hs patience).symm.trans hcall
  obtain ⟨_, hsilent, hlog, hparams⟩ := waitUntil_finished (s := s.called (scanCommand c)) rfl hwait
  exact ⟨t, hcall, (State.returned_eq_some.1 hret).1, hsilent, hparams, hret, hrest, hbuf, hlog⟩

/-! ### All candidates -/

/-- The candidates are probed one after another: an induction on the list of candidates. -/
theorem scanResults_of_pingAnswers {result : Nat → Result} {answers : Nat → List StatusWord} {rest : List StatusWord}
    {patience : Nat} (cs : List Nat) {s : State} (hcs : ∀ c ∈ cs, c < 127) (hp : s.phase = .idle) (hs : s.script = [])
    (hans : s.statusAnswers = cs.flatMap answers ++ rest)
    (hr : ∀ c ∈ cs, pingAnswers s.params (result c) (answers c) ∧ (answers c).length + 5 ≤ patience) :
    ∃ t, scanResults patience cs s = .finished (cs.map fun c => (c, result c)) t ∧ Probed result cs rest s t := by
  induction cs generalizing s with
  | nil => exact ⟨s, rfl, .nil hp hs hans⟩
  | cons c cs ih =>
    rw [List.forall_mem_cons] at hcs hr
    obtain ⟨hc, hcs⟩ := hcs
    obtain ⟨⟨hrc, hpatience⟩, hr⟩ := hr
    rw [List.flatMap_cons, List.append_assoc] at hans
    obtain ⟨t, hcall, hprobed⟩ := call_scanCommand hc hp hs hans hrc hpatience
    rw [← hprobed.params] at hr
    obtain ⟨u, hscan, hothers⟩ := ih hcs hprobed.idle hprobed.silent hprobed.statusAnswers hr
    exact ⟨u, scanResults_cons hcall hscan, hprobed.cons hothers⟩

/-- Settles O54: all candidates probed, and the report of their results; the last one is 0x7E. -/
theorem scanReportsTheCandidatesWithOk : Obligations.ScanReportsTheCandidatesWithOk := by
  intro s result answers rest patience hp hs hans hr
  obtain ⟨t, hscan, hprobed⟩ := scanResults_of_pingAnswers scanCandidates (fun c hc => List.mem_range.1 hc) hp hs hans
    (fun c hc => hr c (List.mem_range.1 hc))
  refine ⟨t, ?_, hprobed.idle, ?_, hprobed.statusAnswers, hprobed.buffer, hprobed.hostLog⟩
  · rw [scan, hscan, HostRun.andThen, scanReport_map]
    rfl
  · rw [hprobed.returned, scanCandidates, List.range_succ, List.foldl_append]
    rfl

end Sys2Proof.Machine
end

