-- ==== Sys2Proof/Proofs/ReadPhases.lean ====
section
/-! The phases only READ uses (spec/42_read.md R108 to R112), and what an operation that fails leaves (R115, R131, R151). -/

namespace Sys2Proof.Machine

/-! ### The actions and the address wait -/

/-- Settles O20: the three action phases have no choice. -/
theorem readActionPhases : Obligations.ReadActionPhases := fun _ _ _ s =>
  ⟨exec_ackCfg _ s, exec_start2 _ s, fun hp => ⟨wire s.addr .read, wire_toNat s.addr .read, exec_addrR _ s hp⟩⟩

/-- Settles O21: the four cases of the bounded poll. -/
theorem addressReadWaitStep : Obligations.AddressReadWaitStep := by
  intro a r n s hp
  rw [exec_addrRWait _ s hp]
  obtain ⟨h0, e⟩ | ⟨h0, hm, e⟩ | ⟨h1, hm, e⟩ | ⟨h0, h1, hm, e⟩ := addrRWait_cases s <;> rw [e]
  · exact ⟨fun h => absurd h0 h, fun h => absurd h0 h, fun h => absurd h0 (counter_ne_zero_of_eq_one h), fun _ => rfl⟩
  · rw [hm]
    exact ⟨fun _ _ => apply_ite Host.Outcome.next _ _ _, nofun, nofun, fun h => absurd h h0⟩
  · rw [hm]
    exact ⟨nofun, fun _ h => absurd h1 h, fun _ _ => rfl, fun h => absurd h (counter_ne_zero_of_eq_one h1)⟩
  · rw [hm]
    exact ⟨nofun, fun _ _ _ => rfl, fun h => absurd h h1, fun h => absurd h h0⟩

/-! ### The byte transfer -/

/-- A buffer write stops at an index outside the space (log entry 14). -/
theorem memWrite_outside {i : Byte} (h : bufferSpace ≤ i.toNat) (v : Byte) (s : State) :
    memWrite i v s = .fault .bufferIndexOutside := if_pos h

/-- A buffer write is refused beyond the bytes the host provided (U15). -/
theorem memWrite_short {i : Byte} {s : State} (hspace : i.toNat < bufferSpace) (h : s.bufferSize ≤ i.toNat) (v : Byte) :
    memWrite i v s = .refused .bufferTooShort := (if_neg (Nat.not_le.2 hspace)).trans (if_pos h)

/-- RX_TAKE's next state: the last byte alone writes RESULT and goes to STOP (R112). -/
theorem rxAfter_eq (last : Bool) (s : State) :
    rxAfter last s = { s with
      idx := s.idx + 1#8
      result := if last then .ok else s.result
      phase := if last then .stop else .rxWait } := by
  cases last <;> rfl

/-- Settles O22: RX_TAKE is one buffer write of the byte taken. -/
theorem receiveTakesOneByte : Obligations.ReceiveTakesOneByte := by
  intro a r n s hp
  rw [exec_rxTake _ s hp]
  refine ⟨fun hspace hsize => ⟨Memory.put s.buffer s.idx.toNat s.dataByte, ?_, fun hwf => ?_, fun j hj => ?_⟩,
    fun hidx => ?_, fun hspace hshort => ?_⟩
  · rw [(rxTake_next_iff s _).2 ⟨hspace, hsize, rfl⟩, rxAfter_eq]
    simp only [State.lastByte, decide_eq_true_eq]
    rfl
  · exact ⟨Memory.get_put_self hwf _ _, Memory.wf_put hwf hspace _⟩
  · exact Memory.get_put_of_ne _ hj
  · rw [rxTake, memWrite_outside (Nat.le_of_eq hidx.symm)]
  · rw [rxTake, memWrite_short (s := s.dataTaken) hspace hshort]

/-! ### The end of an operation -/

/-- The steps that end an operation: the abort of a bounded wait, which moves no byte, and STOP (R150, R80). -/
theorem PhaseStep.cases_of_idle {op : Op} {s t : State} (h : PhaseStep op s t) (hb : s.phase ≠ .idle)
    (ht : t.phase = .idle) : (boundedWait s.phase = true ∧ t.idx = s.idx ∧ t.done = true) ∨
      (s.phase = .stop ∧ t = Machine.stop s) := by
  cases h with
  | stop hp => exact .inr ⟨hp, rfl⟩
  | busWait_spent hp | busWait_expired hp | addrWWait_spent hp | addrWWait_expired hp | addrRWait_spent hp
  | addrRWait_expired hp => exact .inl ⟨by rw [hp]; rfl, rfl, rfl⟩
  | bounded_pending | unbounded_pending => exact absurd ht hb
  | regSelWait_read | regSelWait_write | txPut =>
    rw [State.goto_phase] at ht
    split at ht <;> cases ht
  | _ => cases ht

/-- No byte is moved before the bounded waits (R18). -/
theorem idx_eq_zero_of_bounded {s : State} (hs : indexInRange s = true) (hb : boundedWait s.phase = true) :
    s.idx = 0#8 := by
  rcases (boundedWait_iff _).1 hb with hp | hp | hp <;> simpa [indexInRange, hp] using hs

/-- In STOP only PING has a result other than OK (R151). -/
theorem op_eq_ping_of_stop {s : State} (hs : flagsAgree s = true) (hp : s.phase = .stop) (hr : s.result ≠ .ok) :
    s.op = .ping := by
  by_contra hop
  have hflags : s.done = false ∧ s.result = .ok := by simpa [flagsAgree, hp, hop] using hs
  exact hr hflags.2

/-- Settles O42: a failing operation ends in a bounded wait, before the byte loops, or it is a PING, which moves no byte. -/
theorem failedOperationMovesNoByte : Obligations.FailedOperationMovesNoByte := by
  intro s t hinv hs hb h ht hr
  obtain ⟨_, _, hidx, _, hflags, _⟩ := hinv
  obtain ⟨hwait, htidx, hdone⟩ | ⟨hp, rfl⟩ := (step_inversion h hs hb).cases_of_idle hb ht
  · refine ⟨htidx.trans (idx_eq_zero_of_bounded hidx hwait), hdone, fun _ hp => ?_⟩
    rw [hp] at hwait
    cases hwait
  · have hping : s.op = .ping := op_eq_ping_of_stop hflags hp hr
    have hzero : s.idx = 0#8 := by simpa [indexInRange, hp, hping] using hidx
    exact ⟨hzero, rfl, fun hop => absurd hping hop⟩

end Sys2Proof.Machine
end

