-- ==== Sys2Proof/Proofs/Read.lean ====
section
/-! READ of a present device (spec/42_read.md R105, R115): the way to its byte loop, the loop as an induction on the bytes still to come, and STOP. -/

namespace Sys2Proof.Machine

/-! ### The buffer after the loop -/

namespace Memory

/-- The memory with these bytes written one after another from an index on. -/
def fill : Memory → Nat → List Byte → Memory
  | m, _, [] => m
  | m, i, b :: bytes => fill (put m i b) (i + 1) bytes

/-- Filling leaves every index outside the range alone. -/
theorem get_fill_of_outside {m : Memory} {i j : Nat} {bytes : List Byte} (h : j < i ∨ i + bytes.length ≤ j) :
    get (fill m i bytes) j = get m j := by
  induction bytes generalizing m i with
  | nil => rfl
  | cons b bytes ih =>
    rw [List.length_cons] at h
    rw [fill, ih (by omega), get_put_of_ne b (by omega)]

/-- Inside the range the bytes stand in their order. -/
theorem get_fill {m : Memory} {i k : Nat} {bytes : List Byte} {b : Byte} (hm : wf m) (hi : i + bytes.length ≤ bufferSpace)
    (h : bytes[k]? = some b) : get (fill m i bytes) (i + k) = b := by
  induction bytes generalizing m i k with
  | nil => cases h
  | cons c bytes ih =>
    rw [List.length_cons] at hi
    rw [fill]
    cases k with
    | zero =>
      obtain rfl : c = b := by simpa using h
      rw [get_fill_of_outside (.inl (by omega)), Nat.add_zero, get_put_self hm]
    | succ k =>
      rw [← Nat.add_assoc, Nat.add_right_comm]
      exact ih (wf_put hm (by omega) c) (by omega) h

end Memory

/-! ### The way to the byte loop -/

/-- One sample, where its answer is scripted. -/
theorem State.sampled_eq_waited {s : State} {w : StatusWord} {more : List StatusWord} (hans : s.statusAnswers = w :: more) :
    s.sampled = s.waited [w] more := by
  rw [State.sampled, State.statusWord_cons hans, hans]
  rfl

/-- The state in REGSEL_WAIT after ADDRW_WAIT was satisfied by the sample `w` and the register index was sent (R85, R107). -/
def State.registerSent (w : StatusWord) (more : List StatusWord) (s : State) : State :=
  { s with
    statusAnswers := more
    fresh := s.fresh + 1
    trace := .dataWr s.reg :: .statusRd w :: s.trace
    phase := .regSelWait }

/-- The state in START2 after REGSEL_WAIT was satisfied by the sample `w`, with ACK_EN issued exactly for
LEN > 1 (R86, R108). -/
def State.acknowledgeSet (w : StatusWord) (more : List StatusWord) (s : State) : State :=
  { s with
    statusAnswers := more
    fresh := s.fresh + 1
    trace := (if 1 < s.len.toNat then [.ackEn] else []) ++ .statusRd w :: s.trace
    phase := .start2 }

/-- The state in ADDRR_WAIT after the repeated START, whose wait was satisfied by the sample `w`, and the
address byte (R109, R110). -/
def State.readdressed (w : StatusWord) (more : List StatusWord) (s : State) : State :=
  { s with
    tmo := s.params.tAddr
    statusAnswers := more
    fresh := s.fresh + 1
    trace := .dataWr (wire s.addr .read) :: .statusRd w :: .start :: s.trace
    phase := .addrRWait }

/-- The state at the head of the byte loop after ADDRR_WAIT was satisfied by the sample `w`; with
LEN = 0 it is in STOP (R110). -/
def State.loopEntered (w : StatusWord) (more : List StatusWord) (s : State) : State :=
  { s with
    statusAnswers := more
    fresh := s.fresh + 1
    trace := .statusRd w :: s.trace
    result := if s.len = 0#8 then .ok else s.result
    phase := if s.len = 0#8 then .stop else .rxWait }

section
variable {s : State} (hs : s.script = [])
include hs

theorem step_regSel (hp : s.phase = .regSel) : step s = .next (regSel s) := by
  rw [step_running hs (by rw [hp]; nofun), exec_regSel _ _ hp]

theorem step_ackCfg (hp : s.phase = .ackCfg) : step s = .next (ackCfg s) := by
  rw [step_running hs (by rw [hp]; nofun), exec_ackCfg _ _ hp]

theorem step_start2 (hp : s.phase = .start2) : step s = .next (start2 s) := by
  rw [step_running hs (by rw [hp]; nofun), exec_start2 _ _ hp]

theorem step_addrR (hp : s.phase = .addrR) : step s = .next (addrR s) := by
  rw [step_running hs (by rw [hp]; nofun), exec_addrR _ _ hp]

variable {w : StatusWord} {more : List StatusWord} (hans : s.statusAnswers = w :: more)
include hans

/-- A wait satisfied by its first sample that does not move to STOP writes PHASE alone. -/
theorem step_satisfied_goto {e : Event} {p : Phase} (ha : awaited s.phase = some e)
    (h0 : boundedWait s.phase = true → s.tmo ≠ 0#32) (hping : s.phase = .regSelWait → s.op ≠ .ping)
    (hm : oracleMatch s.params e w = true) (hexit : s.exitPhase = p) (hp : p ≠ .stop) :
    step s = .next ((s.waited [w] more).goto p) := by
  have hexit' : (s.waited [w] more).exitPhase = p := hexit
  rw [← State.statusWord_cons hans] at hm
  rw [step_satisfied hs ha h0 hping hm, State.sampled_eq_waited hans]
  simp [State.leaveWait, State.goto, hexit', hp]

/-- ADDRW_WAIT and REGSEL, for READ and WRITE. -/
theorem run_registerSent (hp : s.phase = .addrWWait) (h0 : s.tmo ≠ 0#32) (hop : s.op ≠ .ping)
    (hm : oracleMatch s.params .addrTxSelected w = true) : run 2 s = .next (s.registerSent w more) := by
  have hexit : s.exitPhase = .regSel := by rw [State.exitPhase, hp]; exact if_neg hop
  have hwait : step s = .next ((s.waited [w] more).goto .regSel) :=
    step_satisfied_goto hs hans (by rw [hp]; rfl) (fun _ => h0) (by rw [hp]; nofun) hm hexit nofun
  rw [run_succ_of_step hwait]
  exact run_one_of_step (step_regSel hs rfl)

/-- REGSEL_WAIT, and ACKCFG where LEN > 1. -/
theorem run_acknowledgeSet (hp : s.phase = .regSelWait) (hop : s.op = .read)
    (hm : oracleMatch s.params .txEmpty w = true) :
    run (1 + if 1 < s.len.toNat then 1 else 0) s = .next (s.acknowledgeSet w more) := by
  have hexit : s.exitPhase = if 1 < s.len.toNat then .ackCfg else .start2 := by rw [State.exitPhase, hp, hop]
  have hwait {p : Phase} : s.exitPhase = p → p ≠ .stop → step s = .next ((s.waited [w] more).goto p) :=
    step_satisfied_goto hs hans (by rw [hp]; rfl) (by rw [hp]; nofun) (by rw [hop]; nofun) hm
  unfold State.acknowledgeSet
  by_cases hn : 1 < s.len.toNat
  · rw [if_pos hn] at hexit ⊢
    rw [if_pos hn, run_add_of_run (run_one_of_step (hwait hexit nofun))]
    exact run_one_of_step (step_ackCfg hs rfl)
  · rw [if_neg hn] at hexit ⊢
    rw [if_neg hn]
    exact run_one_of_step (hwait hexit nofun)

/-- START2, START2_WAIT and ADDRR. -/
theorem run_readdressed (hp : s.phase = .start2) (hm : oracleMatch s.params .startSelected w = true) :
    run 3 s = .next (s.readdressed w more) := by
  have hwait : step (start2 s) = .next (((start2 s).waited [w] more).goto .addrR) :=
    step_satisfied_goto (s := start2 s) hs hans rfl nofun nofun hm rfl nofun
  have haddrR := step_addrR (s := ((start2 s).waited [w] more).goto .addrR) hs rfl
  rw [run_succ_of_step (step_start2 hs hp), run_succ_of_step hwait, run_one_of_step haddrR]
  simp [addrR, start2, State.readdressed, State.waited, State.load, State.goto, State.act, samplesOf]

/-- ADDRR_WAIT. -/
theorem step_loopEntered (hp : s.phase = .addrRWait) (h0 : s.tmo ≠ 0#32)
    (hm : oracleMatch s.params .addrRxSelected w = true) : step s = .next (s.loopEntered w more) := by
  have hexit : (s.waited [w] more).exitPhase = if s.len = 0#8 then .stop else .rxWait := by
    show s.exitPhase = _
    rw [State.exitPhase, hp]
  rw [← State.statusWord_cons hans] at hm
  rw [step_satisfied hs (by rw [hp]; rfl) (fun _ => h0) (by rw [hp]; nofun) hm, State.sampled_eq_waited hans,
    State.leaveWait, hexit]
  by_cases hlen : s.len = 0#8
  · simp only [State.loopEntered, if_pos hlen]
    rfl
  · simp only [State.loopEntered, if_neg hlen]
    rfl

end

/-- READ's way from ADDRW_WAIT to the head of its byte loop, its four waits each satisfied by their first sample. -/
def State.loopReached (w3 w4 w5 w6 : StatusWord) (more : List StatusWord) (s : State) : State :=
  (((s.registerSent w3 (w4 :: w5 :: w6 :: more)).acknowledgeSet w4 (w5 :: w6 :: more)).readdressed w5
    (w6 :: more)).loopEntered w6 more

section
variable {s : State} {w3 w4 w5 w6 : StatusWord} {more : List StatusWord}

/-- ADDRW_WAIT to the head of the byte loop: eight steps with ACKCFG, seven without. -/
theorem run_loopReached (hs : s.script = []) (hp : s.phase = .addrWWait) (hop : s.op = .read) (h0 : s.tmo ≠ 0#32)
    (htAddr : s.params.tAddr ≠ 0#32) (hans : s.statusAnswers = w3 :: w4 :: w5 :: w6 :: more)
    (hm3 : oracleMatch s.params .addrTxSelected w3 = true) (hm4 : oracleMatch s.params .txEmpty w4 = true)
    (hm5 : oracleMatch s.params .startSelected w5 = true) (hm6 : oracleMatch s.params .addrRxSelected w6 = true) :
    run (7 + if 1 < s.len.toNat then 1 else 0) s = .next (s.loopReached w3 w4 w5 w6 more) := by
  have hregister := run_registerSent hs hans hp h0 (by rw [hop]; nofun) hm3
  have hset := run_acknowledgeSet (s := s.registerSent w3 (w4 :: w5 :: w6 :: more)) hs rfl rfl hop hm4
  have hrestart := run_readdressed
    (s := (s.registerSent w3 (w4 :: w5 :: w6 :: more)).acknowledgeSet w4 (w5 :: w6 :: more)) hs rfl rfl hm5
  have hloop := step_loopEntered
    (s := ((s.registerSent w3 (w4 :: w5 :: w6 :: more)).acknowledgeSet w4 (w5 :: w6 :: more)).readdressed w5 (w6 :: more))
    hs rfl rfl htAddr hm6
  have hsteps (k : Nat) : 7 + k = 2 + ((1 + k) + (3 + 1)) := by omega
  rw [hsteps, run_add_of_run hregister]
  exact (run_add_of_run hset).trans ((run_add_of_run hrestart).trans (run_one_of_step hloop))

/-- The actions on the way to the byte loop (R86, R108 to R110). -/
theorem State.loopReached_trace : (s.loopReached w3 w4 w5 w6 more).trace =
    .statusRd w6 :: .dataWr (wire s.addr .read) :: .statusRd w5 :: .start ::
      ((if 1 < s.len.toNat then [.ackEn] else []) ++ .statusRd w4 :: .dataWr s.reg :: .statusRd w3 :: s.trace) := rfl

theorem State.loopReached_bytesSent :
    bytesSent (s.loopReached w3 w4 w5 w6 more).trace = wire s.addr .read :: s.reg :: bytesSent s.trace := by
  rw [State.loopReached_trace]
  split <;> rfl

/-- ACK_EN on the way to the byte loop: once, exactly for more than one byte (R108). -/
theorem State.loopReached_ackEn :
    (s.loopReached w3 w4 w5 w6 more).trace.count .ackEn = s.trace.count .ackEn + if 1 < s.len.toNat then 1 else 0 := by
  rw [State.loopReached_trace]
  split <;> simp

end

/-! ### The byte loop -/

/-- The state after RX_WAIT was satisfied by the sample `w` and RX_TAKE took the byte `b` (R111, R112). -/
def State.received (w : StatusWord) (moreSamples : List StatusWord) (b : Byte) (moreBytes : List Byte) (s : State) : State :=
  { s with
    idx := s.idx + 1#8
    buffer := Memory.put s.buffer s.idx.toNat b
    statusAnswers := moreSamples
    dataAnswers := moreBytes
    fresh := s.fresh + 2
    trace := .dataRd b :: .statusRd w :: s.trace
    result := if s.idx + 1#8 = s.len then .ok else s.result
    phase := if s.idx + 1#8 = s.len then .stop else .rxWait }

/-- RX_WAIT and RX_TAKE, where the buffer has a byte at IDX. -/
theorem run_received {s : State} {w : StatusWord} {moreSamples : List StatusWord} {b : Byte} {moreBytes : List Byte}
    (hs : s.script = []) (hans : s.statusAnswers = w :: moreSamples) (hdata : s.dataAnswers = b :: moreBytes)
    (hp : s.phase = .rxWait) (hm : oracleMatch s.params .rxNotEmpty w = true) (hspace : s.idx.toNat < bufferSpace)
    (hsize : s.idx.toNat < s.bufferSize) : run 2 s = .next (s.received w moreSamples b moreBytes) := by
  have hwait : step s = .next ((s.waited [w] moreSamples).goto .rxTake) :=
    step_satisfied_goto hs hans (by rw [hp]; rfl) (by rw [hp]; nofun) (by rw [hp]; nofun) hm (by rw [State.exitPhase, hp])
      nofun
  have hbyte : ((s.waited [w] moreSamples).goto .rxTake).dataByte = b := State.dataByte_cons hdata
  have htake := step_rxTake (s := (s.waited [w] moreSamples).goto .rxTake) hs rfl hspace hsize
  rw [rxAfter_eq, State.dataTaken, hbyte, State.goto_dataAnswers, show (s.waited [w] moreSamples).dataAnswers = _ from hdata]
    at htake
  rw [run_succ_of_step hwait, run_one_of_step htake]
  simp only [State.lastByte, decide_eq_true_eq]
  rfl

/-- READ at the head of its byte loop: from IDX on these bytes are still to come, the environment has a satisfying sample for
each, and with none left it is in STOP with OK (R110 to R112). -/
structure Receiving (bytes more : List Byte) (samples rest : List StatusWord) (s : State) : Prop where
  silent : s.script = []
  remaining : s.idx.toNat + bytes.length = s.len.toNat
  onward : s.idx ≠ s.len → s.phase = .rxWait
  ended : s.idx = s.len → s.phase = .stop ∧ s.result = .ok
  fits : s.len.toNat ≤ s.bufferSize
  statusAnswers : s.statusAnswers = samples ++ rest
  dataAnswers : s.dataAnswers = bytes ++ more
  sampleForEach : samples.length = bytes.length
  satisfied : ∀ w ∈ samples, oracleMatch s.params .rxNotEmpty w = true

section
variable {bytes more : List Byte} {samples rest : List StatusWord} {s : State}

/-- While bytes are to come, IDX is below LEN (R18). -/
theorem Receiving.idx_lt {b : Byte} (h : Receiving (b :: bytes) more samples rest s) : s.idx.toNat < s.len.toNat := by
  have hlen := h.remaining
  rw [List.length_cons] at hlen
  omega

/-- One byte received, and the loop goes on with the others. -/
theorem Receiving.cons {b : Byte} {w : StatusWord} (h : Receiving (b :: bytes) more (w :: samples) rest s) :
    run 2 s = .next (s.received w (samples ++ rest) b (bytes ++ more)) ∧
      Receiving bytes more samples rest (s.received w (samples ++ rest) b (bytes ++ more)) := by
  have hlt := h.idx_lt
  have hne : s.idx ≠ s.len := fun he => Nat.ne_of_lt hlt (congrArg BitVec.toNat he)
  have hspace : s.idx.toNat < bufferSpace := Nat.lt_of_lt_of_le hlt (Nat.le_of_lt_succ s.len.isLt)
  have hremaining : (s.idx + 1#8).toNat + bytes.length = s.len.toNat := by
    rw [index_succ_toNat hlt, ← h.remaining, List.length_cons]
    omega
  exact ⟨run_received h.silent h.statusAnswers h.dataAnswers (h.onward hne) (h.satisfied w List.mem_cons_self) hspace
      (Nat.lt_of_lt_of_le hlt h.fits),
    { silent := h.silent
      remaining := hremaining
      onward := fun hmore => if_neg hmore
      ended := fun hlast => ⟨if_pos hlast, if_pos hlast⟩
      fits := h.fits
      statusAnswers := rfl
      dataAnswers := rfl
      sampleForEach := Nat.succ.inj h.sampleForEach
      satisfied := fun v hv => h.satisfied v (List.mem_cons_of_mem w hv) }⟩

/-- The whole loop: two steps a byte, the bytes in the buffer from IDX on, no byte sent and no ACK_EN (R113). -/
theorem Receiving.run (h : Receiving bytes more samples rest s) :
    ∃ t, Machine.run (2 * bytes.length) s = .next t ∧ Receiving [] more [] rest t ∧
      t.buffer = Memory.fill s.buffer s.idx.toNat bytes ∧ t.len = s.len ∧
      bytesSent t.trace = bytesSent s.trace ∧ t.trace.count .ackEn = s.trace.count .ackEn := by
  induction bytes generalizing samples s with
  | nil =>
    obtain rfl : samples = [] := List.eq_nil_of_length_eq_zero h.sampleForEach
    exact ⟨s, rfl, h, rfl, rfl, rfl, rfl⟩
  | cons b bytes ih =>
    obtain ⟨w, samples, rfl⟩ := List.exists_cons_of_length_eq_add_one h.sampleForEach
    obtain ⟨hbyte, hnext⟩ := h.cons
    obtain ⟨t, hrun, hend, hbuf, hlen, hsent, hack⟩ := ih hnext
    refine ⟨t, ?_, hend, ?_, hlen, hsent, ?_⟩
    · rw [List.length_cons, Nat.mul_succ, Nat.add_comm, run_add_of_run hbyte, hrun]
    · rw [hbuf, Memory.fill, ← index_succ_toNat h.idx_lt]
      rfl
    · rw [hack]
      simp [State.received]

/-- The loop and STOP: OK is reported, and the bus is released (R115, R117). -/
theorem Receiving.run_stop (h : Receiving bytes more samples rest s) :
    ∃ t, Machine.run (2 * bytes.length + 1) s = .next t ∧ t.returned = some .ok ∧ t.statusAnswers = rest ∧
      t.dataAnswers = more ∧ t.idx = s.len ∧ busHeld t.trace = false ∧
      t.buffer = Memory.fill s.buffer s.idx.toNat bytes ∧ t.trace.count .ackEn = s.trace.count .ackEn ∧
      bytesSent t.trace = bytesSent s.trace := by
  obtain ⟨t, hrun, hend, hbuf, hlen, hsent, hack⟩ := h.run
  have hidx : t.idx = t.len := BitVec.eq_of_toNat_eq hend.remaining
  obtain ⟨hstop, hok⟩ := hend.ended hidx
  refine ⟨stop t, ?_, State.returned_eq_some.2 ⟨rfl, rfl, hok⟩, hend.statusAnswers, hend.dataAnswers, hidx.trans hlen, rfl,
    hbuf, ?_, hsent⟩
  · rw [run_add_of_run hrun]
    exact run_one_of_step (step_stop hend.silent hstop)
  · simpa [stop] using hack

/-- At the head of the byte loop all bytes are still to come; for no byte READ is in STOP already (R110). -/
theorem State.loopReached_receiving {w3 w4 w5 w6 : StatusWord} (hs : s.script = []) (hidx : s.idx = 0#8)
    (hsize : s.len.toNat ≤ s.bufferSize) (hdata : s.dataAnswers = bytes ++ more) (hbytes : bytes.length = s.len.toNat)
    (hsamples : samples.length = s.len.toNat) (hall : ∀ w ∈ samples, oracleMatch s.params .rxNotEmpty w = true) :
    Receiving bytes more samples rest (s.loopReached w3 w4 w5 w6 (samples ++ rest)) := by
  have hempty : s.idx = s.len ↔ s.len = 0#8 := by rw [hidx, eq_comm]
  have hremaining : s.idx.toNat + bytes.length = s.len.toNat := by
    rw [hidx, hbytes]
    exact Nat.zero_add _
  exact
    { silent := hs
      remaining := hremaining
      onward := fun hmore => if_neg (mt hempty.2 hmore)
      ended := fun hlast => ⟨if_pos (hempty.1 hlast), if_pos (hempty.1 hlast)⟩
      fits := hsize
      statusAnswers := rfl
      dataAnswers := hdata
      sampleForEach := hsamples.trans hbytes.symm
      satisfied := hall }

end

/-! ### The whole operation -/

/-- The address byte made of a latched address, with the read direction (R61). -/
theorem wire_read_ofNat (a : Nat) : wire (BitVec.ofNat 7 a) .read = BitVec.ofNat 8 (2 * a + 1) := by
  refine BitVec.eq_of_toNat_eq ?_
  have hwire : (wire (BitVec.ofNat 7 a) .read).toNat = 2 * (BitVec.ofNat 7 a).toNat + 1 := wire_toNat _ _
  rw [hwire, BitVec.toNat_ofNat, BitVec.toNat_ofNat]
  omega

/-- Settles O51: Accept to ADDRW_WAIT, the way to the byte loop, the loop, and STOP. -/
theorem readFillsItsBuffer : Obligations.ReadFillsItsBuffer := by
  intro s a r n w1 answers rest bytes more hwf hp hs htIdle htAddr hsize hcanon hans hm1 hall hlen hdata hbytes
  obtain ⟨w2, w3, w4, w5, w6, samples, rfl⟩ : ∃ w2 w3 w4 w5 w6 samples,
      answers = w2 :: w3 :: w4 :: w5 :: w6 :: samples := by
    match answers, hlen with
    | w2 :: w3 :: w4 :: w5 :: w6 :: samples, _ => exact ⟨w2, w3, w4, w5, w6, samples, rfl⟩
  simp only [reportsAll, List.forall_mem_cons] at hall
  obtain ⟨⟨hm2, _⟩, ⟨_, hm3, _⟩, ⟨_, _, _, _, _, hm4⟩, ⟨hm5, _⟩, ⟨_, _, hm6, _⟩, hloopAnswers⟩ := hall
  have hn : n < 256 := ((Instr.wellFormed_iff _).1 hwf).2.2
  have hlatched : (s.addressed (.read a r n)).len.toNat = n := (BitVec.toNat_ofNat n 8).trans (Nat.mod_eq_of_lt hn)
  have hsamples : samples.length = n := Nat.add_right_cancel (m := 5) hlen
  have haddressed := run_addressed hwf hp hs hans htIdle hm1 hm2
  have hans3 : (s.addressed (.read a r n)).statusAnswers = w3 :: w4 :: w5 :: w6 :: (samples ++ rest) :=
    State.addressed_statusAnswers hans
  have hway := run_loopReached (s := s.addressed (.read a r n)) rfl rfl rfl htAddr htAddr hans3 hm3 hm4 hm5 hm6
  have hstart : Receiving bytes more samples rest ((s.addressed (.read a r n)).loopReached w3 w4 w5 w6 (samples ++ rest)) :=
    State.loopReached_receiving rfl rfl (hlatched.le.trans hsize) hdata (hbytes.trans hlatched.symm)
      (hsamples.trans hlatched.symm) fun w hw => (hloopAnswers w hw).2.2.2.2.1
  obtain ⟨t, hrun, hret, hrest, hmore, hidx, hreleased, hfill, hack, hsent⟩ := hstart.run_stop
  have hbuffer : t.buffer = Memory.fill s.buffer 0 bytes := hfill
  have hsteps : 2 * n + 13 + (if 1 < n then 1 else 0) = 5 + ((7 + if 1 < n then 1 else 0) + (2 * n + 1)) := by omega
  rw [hlatched] at hway
  rw [hbytes] at hrun
  rw [State.loopReached_ackEn, hlatched, State.addressed_trace hans] at hack
  rw [State.loopReached_bytesSent, State.addressed_trace hans] at hsent
  refine ⟨t, ?_, (State.returned_eq_some.1 hret).1, hret, hrest, hmore, (congrArg BitVec.toNat hidx).trans hlatched,
    hreleased, fun k b hk => ?_, fun k hk => ?_, by simpa using hack, ?_⟩
  · rw [hsteps, run_add_of_run haddressed, run_add_of_run hway, hrun]
  · rw [hbuffer, ← Nat.zero_add k]
    exact Memory.get_fill hcanon (by rw [hbytes, Nat.zero_add]; exact Nat.le_of_lt_succ hn) hk
  · rw [hbuffer]
    exact Memory.get_fill_of_outside (.inr (by omega))
  · rw [← wire_read_ofNat]
    exact hsent

end Sys2Proof.Machine
end

