-- ==== Sys2Proof/Proofs/Write.lean ====
section
/-! WRITE of a present device (spec/43_write.md R125 to R132): TX_PUT, the way to the byte loop, the loop as an induction on the samples it still takes, and the wait for the last byte before STOP. -/

namespace Sys2Proof.Machine

/-! ### The byte transfer -/

/-- A buffer read stops at an index outside the space (log entry 14). -/
theorem memRead_outside {i : Byte} (h : bufferSpace ≤ i.toNat) (s : State) :
    memRead i s = .fault .bufferIndexOutside := if_pos h

/-- A buffer read is refused beyond the bytes the host provided (U15). -/
theorem memRead_short {i : Byte} {s : State} (hspace : i.toNat < bufferSpace) (h : s.bufferSize ≤ i.toNat) :
    memRead i s = .refused .bufferTooShort := (if_neg (Nat.not_le.2 hspace)).trans (if_pos h)

/-- Settles O23: TX_PUT is one buffer read at IDX, and it stops where the read does. -/
theorem transmitPutsOneByte : Obligations.TransmitPutsOneByte := by
  intro a r n s hp
  rw [exec_txPut _ s hp]
  refine ⟨fun hspace hsize => (txPut_next_iff s _).2 ⟨hspace, hsize, rfl⟩, fun hidx => ?_, fun hspace hshort => ?_⟩
  · rw [txPut, memRead_outside (Nat.le_of_eq hidx.symm)]
  · rw [txPut, memRead_short hspace hshort]

/-! ### The way to the byte loop -/

/-- WRITE's way from ADDRW_WAIT to the head of its byte loop, both waits satisfied by their first sample; with LEN = 0 it is
in BTF_WAIT (R126, R132). -/
def State.transmitReached (w3 w4 : StatusWord) (more : List StatusWord) (s : State) : State :=
  ((s.registerSent w3 (w4 :: more)).waited [w4] more).goto (if s.len = 0#8 then .btfWait else .txWait)

/-- WRITE leaves REGSEL_WAIT for its first byte, or with none for BTF_WAIT (R86, R127). -/
theorem State.exitPhase_of_write {s : State} (hp : s.phase = .regSelWait) (hop : s.op = .write) :
    s.exitPhase = if s.len = 0#8 then .btfWait else .txWait := by rw [State.exitPhase, hp, hop]

/-- ADDRW_WAIT, REGSEL and REGSEL_WAIT, one step each. -/
theorem run_transmitReached {s : State} {w3 w4 : StatusWord} {more : List StatusWord} (hs : s.script = [])
    (hp : s.phase = .addrWWait) (hop : s.op = .write) (h0 : s.tmo ≠ 0#32) (hans : s.statusAnswers = w3 :: w4 :: more)
    (hm3 : oracleMatch s.params .addrTxSelected w3 = true) (hm4 : oracleMatch s.params .txEmpty w4 = true) :
    run 3 s = .next (s.transmitReached w3 w4 more) := by
  have hregister : run 2 s = .next (s.registerSent w3 (w4 :: more)) :=
    run_registerSent hs hans hp h0 (by rw [hop]; nofun) hm3
  have hopSent : (s.registerSent w3 (w4 :: more)).op = .write := hop
  have hwait : step (s.registerSent w3 (w4 :: more)) = .next (s.transmitReached w3 w4 more) :=
    step_satisfied_goto (s := s.registerSent w3 (w4 :: more)) hs rfl rfl nofun (by rw [hopSent]; nofun) hm4
      (State.exitPhase_of_write rfl hopSent) (by split <;> nofun)
  rw [run_add_of_run (k := 1) hregister, run_one_of_step hwait]

/-! ### The byte loop -/

/-- The state after TX_WAIT was satisfied by the sample `w` and TX_PUT sent the byte at IDX (R127, R128). -/
def State.transmitted (w : StatusWord) (more : List StatusWord) (s : State) : State :=
  { s with
    idx := s.idx + 1#8
    statusAnswers := more
    fresh := s.fresh + 1
    trace := .dataWr (Memory.get s.buffer s.idx.toNat) :: .statusRd w :: s.trace
    phase := if s.idx + 1#8 = s.len then .btfWait else .txWait }

/-- TX_WAIT and TX_PUT, where the buffer has a byte at IDX. -/
theorem run_transmitted {s : State} {w : StatusWord} {more : List StatusWord} (hs : s.script = [])
    (hans : s.statusAnswers = w :: more) (hp : s.phase = .txWait) (hm : oracleMatch s.params .txEmpty w = true)
    (hspace : s.idx.toNat < bufferSpace) (hsize : s.idx.toNat < s.bufferSize) :
    run 2 s = .next (s.transmitted w more) := by
  have hwait : step s = .next ((s.waited [w] more).goto .txPut) :=
    step_satisfied_goto hs hans (by rw [hp]; rfl) (by rw [hp]; nofun) (by rw [hp]; nofun) hm (by rw [State.exitPhase, hp])
      nofun
  rw [run_succ_of_step hwait]
  exact run_one_of_step (step_txPut (s := (s.waited [w] more).goto .txPut) hs rfl hspace hsize)

/-- WRITE at the head of its byte loop: the environment has a satisfying sample for each byte from IDX on and then `last` for
BTF_WAIT, and with no byte left WRITE is in BTF_WAIT (R127 to R129). -/
structure Transmitting (samples : List StatusWord) (last : StatusWord) (rest : List StatusWord) (s : State) : Prop where
  silent : s.script = []
  remaining : s.idx.toNat + samples.length = s.len.toNat
  onward : s.idx ≠ s.len → s.phase = .txWait
  ended : s.idx = s.len → s.phase = .btfWait
  fits : s.len.toNat ≤ s.bufferSize
  statusAnswers : s.statusAnswers = samples ++ last :: rest
  satisfied : ∀ w ∈ samples, oracleMatch s.params .txEmpty w = true
  lastSatisfied : oracleMatch s.params .byteTransmitted last = true

/-- The bytes of the buffer from an index on, the last one first, as the trace has them once they are sent. -/
def Memory.sentFrom (m : Memory) (i n : Nat) : List Byte := ((List.range' i n).map (Memory.get m)).reverse

/-- The byte sent first stands last. -/
theorem Memory.sentFrom_succ (m : Memory) (i n : Nat) :
    Memory.sentFrom m i (n + 1) = Memory.sentFrom m (i + 1) n ++ [Memory.get m i] := by
  rw [Memory.sentFrom, List.range'_succ, List.map_cons, List.reverse_cons, Memory.sentFrom]

section
variable {samples rest : List StatusWord} {last : StatusWord} {s : State}

/-- While samples are to come, IDX is below LEN (R18). -/
theorem Transmitting.idx_lt {w : StatusWord} (h : Transmitting (w :: samples) last rest s) : s.idx.toNat < s.len.toNat := by
  have hlen := h.remaining
  rw [List.length_cons] at hlen
  omega

/-- One byte sent, and the loop goes on with the others. -/
theorem Transmitting.cons {w : StatusWord} (h : Transmitting (w :: samples) last rest s) :
    run 2 s = .next (s.transmitted w (samples ++ last :: rest)) ∧
      Transmitting samples last rest (s.transmitted w (samples ++ last :: rest)) := by
  have hlt := h.idx_lt
  have hne : s.idx ≠ s.len := fun he => Nat.ne_of_lt hlt (congrArg BitVec.toNat he)
  have hspace : s.idx.toNat < bufferSpace := Nat.lt_of_lt_of_le hlt (Nat.le_of_lt_succ s.len.isLt)
  have hremaining : (s.idx + 1#8).toNat + samples.length = s.len.toNat := by
    rw [index_succ_toNat hlt, ← h.remaining, List.length_cons]
    omega
  exact ⟨run_transmitted h.silent h.statusAnswers (h.onward hne) (h.satisfied w List.mem_cons_self) hspace
      (Nat.lt_of_lt_of_le hlt h.fits),
    { silent := h.silent
      remaining := hremaining
      onward := fun hmore => if_neg hmore
      ended := fun hlast => if_pos hlast
      fits := h.fits
      statusAnswers := rfl
      satisfied := fun v hv => h.satisfied v (List.mem_cons_of_mem w hv)
      lastSatisfied := h.lastSatisfied }⟩

/-- The whole loop: two steps a byte, the bytes sent in their order and the buffer left as it is (R131, R132). -/
theorem Transmitting.run (h : Transmitting samples last rest s) :
    ∃ t, Machine.run (2 * samples.length) s = .next t ∧ Transmitting [] last rest t ∧ t.buffer = s.buffer ∧
      t.len = s.len ∧ bytesSent t.trace = Memory.sentFrom s.buffer s.idx.toNat samples.length ++ bytesSent s.trace := by
  induction samples generalizing s with
  | nil => exact ⟨s, rfl, h, rfl, rfl, rfl⟩
  | cons w samples ih =>
    obtain ⟨hbyte, hnext⟩ := h.cons
    obtain ⟨t, hrun, hend, hbuf, hlen, hsent⟩ := ih hnext
    refine ⟨t, ?_, hend, hbuf, hlen, ?_⟩
    · rw [List.length_cons, Nat.mul_succ, Nat.add_comm, run_add_of_run hbyte, hrun]
    · rw [hsent, List.length_cons, Memory.sentFrom_succ, ← index_succ_toNat h.idx_lt, List.append_assoc]
      rfl

/-- BTF_WAIT and STOP: OK is reported, and the bus is released (R129, R130). -/
theorem Transmitting.run_stop (h : Transmitting [] last rest s) :
    ∃ t, Machine.run 2 s = .next t ∧ t.returned = some .ok ∧ t.statusAnswers = rest ∧ t.idx = s.len ∧
      busHeld t.trace = false ∧ t.buffer = s.buffer ∧ bytesSent t.trace = bytesSent s.trace := by
  have hidx : s.idx = s.len := BitVec.eq_of_toNat_eq h.remaining
  have hp : s.phase = .btfWait := h.ended hidx
  have hm : oracleMatch s.params .byteTransmitted s.statusWord = true :=
    (State.statusWord_cons h.statusAnswers).symm ▸ h.lastSatisfied
  have hexit : s.exitPhase = .stop := by rw [State.exitPhase, hp]
  have hwait : step s = .next s.sampled.leaveWait :=
    step_satisfied h.silent (by rw [hp]; rfl) (by rw [hp]; nofun) (by rw [hp]; nofun) hm
  refine ⟨stop s.sampled.leaveWait, ?_, State.returned_eq_some.2 ⟨rfl, rfl, if_pos hexit⟩,
    congrArg List.tail h.statusAnswers, hidx, rfl, rfl, rfl⟩
  rw [run_succ_of_step hwait]
  exact run_one_of_step (step_stop h.silent hexit)

/-- At the head of the byte loop all bytes are still to be sent; for no byte WRITE is in BTF_WAIT already (R132). -/
theorem State.transmitReached_transmitting {w3 w4 : StatusWord} (hs : s.script = []) (hidx : s.idx = 0#8)
    (hsize : s.len.toNat ≤ s.bufferSize) (hsamples : samples.length = s.len.toNat)
    (hall : ∀ w ∈ samples, oracleMatch s.params .txEmpty w = true)
    (hlast : oracleMatch s.params .byteTransmitted last = true) :
    Transmitting samples last rest (s.transmitReached w3 w4 (samples ++ last :: rest)) := by
  have hempty : s.idx = s.len ↔ s.len = 0#8 := by rw [hidx, eq_comm]
  have hremaining : s.idx.toNat + samples.length = s.len.toNat := by
    rw [hidx, hsamples]
    exact Nat.zero_add _
  exact
    { silent := hs
      remaining := hremaining
      onward := fun hmore => if_neg (mt hempty.2 hmore)
      ended := fun hdone => if_pos (hempty.1 hdone)
      fits := hsize
      statusAnswers := rfl
      satisfied := hall
      lastSatisfied := hlast }

end

/-! ### The whole operation -/

/-- Settles O50: Accept to ADDRW_WAIT, the way to the byte loop, the loop, and BTF_WAIT with STOP. -/
theorem writeSendsItsBuffer : Obligations.WriteSendsItsBuffer := by
  intro s a r n w1 answers rest hwf hp hs htIdle htAddr hsize hans hm1 hall hlen
  obtain ⟨w2, w3, w4, samples, last, rfl⟩ : ∃ w2 w3 w4 samples last,
      answers = w2 :: w3 :: w4 :: (samples ++ [last]) := by
    match answers, hlen with
    | w2 :: w3 :: w4 :: w5 :: more, _ =>
      obtain h | ⟨samples, last, h⟩ := List.eq_nil_or_concat' (w5 :: more)
      · cases h
      · exact ⟨w2, w3, w4, samples, last, by rw [h]⟩
  simp only [reportsAll, List.forall_mem_cons, List.forall_mem_append] at hall
  obtain ⟨⟨hm2, _⟩, ⟨_, hm3, _⟩, ⟨_, _, _, _, _, hm4⟩, hloopAnswers, ⟨_, _, _, hlast, _⟩, _⟩ := hall
  have hn : n < 256 := ((Instr.wellFormed_iff _).1 hwf).2.2
  have hlatched : (s.addressed (.write a r n)).len.toNat = n := (BitVec.toNat_ofNat n 8).trans (Nat.mod_eq_of_lt hn)
  have hsamples : samples.length = n := by simpa using hlen
  simp only [List.cons_append, List.append_assoc, List.nil_append] at hans
  have haddressed := run_addressed hwf hp hs hans htIdle hm1 hm2
  have hway := run_transmitReached (s := s.addressed (.write a r n)) rfl rfl rfl htAddr
    (State.addressed_statusAnswers hans) hm3 hm4
  have hstart : Transmitting samples last rest
      ((s.addressed (.write a r n)).transmitReached w3 w4 (samples ++ last :: rest)) :=
    State.transmitReached_transmitting rfl rfl (hlatched.le.trans hsize) (hsamples.trans hlatched.symm)
      (fun w hw => (hloopAnswers w hw).2.2.2.2.2) hlast
  obtain ⟨u, hloop, hend, hbufLoop, hlenLoop, hsentLoop⟩ := hstart.run
  obtain ⟨t, hstop, hret, hrest, hidx, hreleased, hbuf, hsent⟩ := hend.run_stop
  have hsteps : 2 * n + 10 = 5 + (3 + (2 * n + 2)) := by omega
  have hbytes : bytesSent ((s.addressed (.write a r n)).transmitReached w3 w4 (samples ++ last :: rest)).trace =
      BitVec.ofNat 8 r :: bytesSent (s.addressed (.write a r n)).trace := rfl
  rw [hsamples] at hloop hsentLoop
  rw [hbytes, State.addressed_trace hans] at hsentLoop
  refine ⟨t, ?_, (State.returned_eq_some.1 hret).1, hret, hbuf.trans hbufLoop, hrest,
    (congrArg BitVec.toNat (hidx.trans hlenLoop)).trans hlatched, hreleased, ?_⟩
  · rw [hsteps, run_add_of_run haddressed, run_add_of_run hway, run_add_of_run hloop, hstop]
  · rw [hsent, List.range_eq_range']
    exact hsentLoop

end Sys2Proof.Machine
end

