-- ==== Sys2Proof/Proofs/Reset.lean ====
section
/-! The reset input (spec/70_reset_and_hazards.md R166, R167): the step the host takes with it, and that the abandoned operation reports no result. -/

namespace Sys2Proof.Machine

/-- The reset input's step, whatever phase it arrives in (R167). -/
theorem step_reset {s : State} {rest : List HostStep} (hs : s.script = .reset :: rest) :
    step s = .next ({ s with script := rest } : State).resetInput :=
  step_host hs

/-- No result is visible while DONE = 0 (R22). -/
theorem State.returned_eq_none_of_not_done {s : State} (h : s.done = false) : s.returned = none := by
  simp [State.returned, h]

/-- Settles O36: the reset input writes PHASE and DONE and the unspecified registers only, so the two flags and what a call
returns follow from PHASE and DONE. -/
theorem resetInputAbandonsTheOperation : Obligations.ResetInputAbandonsTheOperation := by
  intro s rest hs
  have hdone : ({ s with script := rest } : State).resetInput.done = false := State.resetInput_done _
  exact ⟨_, step_reset hs, rfl, hdone, rfl, rfl, rfl, rfl, rfl, rfl, State.returned_eq_none_of_not_done hdone⟩

end Sys2Proof.Machine
end
